-- ==== Sys2Proof/Word.lean ====
section
/-! DEFINITION. The widths of the engine's words (spec/00_scope.md R6, R12; spec/30_encoding.md R70, R71). -/

namespace Sys2Proof

/-- A byte, 0 to 255 (R12): the operand field `imm` of a command word. -/
abbrev Byte := BitVec 8

/-- A digit, 0 to 31 (R6 `DIGIT_W`, R12). -/
abbrev Digit := BitVec 5

/-- A value of the accumulator (R6 `CHK_W`, R21; 30 bits by spec/90_conflicts.md C1). -/
abbrev Acc := BitVec 30

/-- A command word (R6 `CMD_W`, R70). -/
abbrev CmdWord := BitVec 16

/-- A response word (R6 `RSP_W`, R71). -/
abbrev RspWord := BitVec 32

end Sys2Proof
end

