-- ==== Sys2Proof/Syntax.lean ====
section
/-! DEFINITION. The command set: one constructor per row of spec/opcode_table.json (spec/30_encoding.md R74, R75). The
operands are the operand fields of the table (R72, R80). -/

namespace Sys2Proof

/-- A command of the engine (R74), or a word of one of the two reserved opcodes (R75, R76; log entry 9). -/
inductive Instr where
  /-- `NOP` (R160): do nothing. -/
  | nop
  /-- `INIT` (R161): open a new call. -/
  | init
  /-- `HRPB b` (R113): accept one byte of the HRP. -/
  | hrpb (b : Byte)
  /-- `HRPEND` (R114): close the HRP. -/
  | hrpend
  /-- `DIG d` (R137): validate one digit and absorb it. -/
  | dig (d : Byte)
  /-- `SYM c` (R138): map one symbol to its digit and absorb it. -/
  | sym (c : Byte)
  /-- `CSUM` (R139): create the checksum. -/
  | csum
  /-- `VRFY` (R140): verify the residue. -/
  | vrfy
  /-- `S2D c` (R96): map a symbol to its digit. -/
  | s2d (c : Byte)
  /-- `D2S d` (R97): map a digit to its symbol. -/
  | d2s (d : Byte)
  /-- `RDD i` (R141): read checksum digit `i`. -/
  | rdd (i : BitVec 3)
  /-- `RDS i` (R142): read checksum digit `i` as a symbol. -/
  | rds (i : BitVec 3)
  /-- `RDR n` (R162): read register `n`. -/
  | rdr (n : BitVec 2)
  /-- `WRC v` (R163): write the control register. -/
  | wrc (v : BitVec 1)
  /-- A word of the reserved opcode 14, with its bits 11:0 (R75). -/
  | reservedOp14 (rest : BitVec 12)
  /-- A word of the reserved opcode 15, with its bits 11:0 (R75). -/
  | reservedOp15 (rest : BitVec 12)
  deriving DecidableEq, Repr

end Sys2Proof
end

