-- ==== Sys2Proof/WellFormed.lean ====
section
/-! DEFINITION. Which terms of `Instr` are words of their row (the range conditions of spec/30_encoding.md R74), and
which of those are legal commands (R73). -/

namespace Sys2Proof

/-- The digit register index of `RDD` and `RDS` is 0 to 5 (R55, R73, R74; log entry 10). -/
def digitIndexOk (i : BitVec 3) : Bool := decide (i.toNat ≤ 5)

/-- The term satisfies the range condition of its row (R74). -/
def Instr.wf : Instr → Bool
  | .rdd i => digitIndexOk i
  | .rds i => digitIndexOk i
  | .nop | .init | .hrpb _ | .hrpend | .dig _ | .sym _ | .csum | .vrfy | .s2d _ | .d2s _ | .rdr _ | .wrc _ => true
  | .reservedOp14 _ | .reservedOp15 _ => true

/-- The opcode is one of the two reserved ones (R75, R76). -/
def Instr.reserved : Instr → Bool
  | .reservedOp14 _ | .reservedOp15 _ => true
  | .nop | .init | .hrpb _ | .hrpend | .dig _ | .sym _ | .csum | .vrfy => false
  | .s2d _ | .d2s _ | .rdd _ | .rds _ | .rdr _ | .wrc _ => false

/-- The term is a legal command (R73): its row's range condition holds and its opcode is at most 13. -/
def Instr.legal (i : Instr) : Bool := i.wf && !i.reserved

end Sys2Proof
end

