-- ==== Sys2Proof/Decode.lean ====
section
/-! DEFINITION. Decoding a command word, total on all 65536 words (spec/30_encoding.md R70, R73 to R75, R77), the
encoder, and the predicate `legal(w)` of R73 written on the bits of the word. -/

namespace Sys2Proof

/-- The field `op`, bits 15:12 (R70). -/
def opField (w : CmdWord) : BitVec 4 := w.extractLsb' 12 4

/-- The field `rsv`, bits 11:8 (R70). -/
def rsvField (w : CmdWord) : BitVec 4 := w.extractLsb' 8 4

/-- The field `imm`, bits 7:0 (R70). -/
def immField (w : CmdWord) : Byte := w.extractLsb' 0 8

/-- The bits 11:0 of a word of a reserved opcode (the field `any` of the table). -/
def restField (w : CmdWord) : BitVec 12 := w.extractLsb' 0 12

/-- `legal(w)` (R73), clause for clause. -/
def legalWord (w : CmdWord) : Bool :=
  let op := (opField w).toNat
  let imm := (immField w).toNat
  rsvField w == 0#4 &&
  decide (op ≤ 13) &&
  (!(op == 0 || op == 1 || op == 3 || op == 6 || op == 7) || imm == 0) &&
  (!(op == 10 || op == 11) || decide (imm ≤ 5)) &&
  (!(op == 12) || decide (imm ≤ 3)) &&
  (!(op == 13) || decide (imm ≤ 1))

/-- Why a word is no command (R75), by name. -/
inductive DecodeError where
  /-- Bits 11:8 are not 0. -/
  | reservedBitsSet
  /-- A command without an operand has `imm` not 0. -/
  | operandNotZero
  /-- The index of `RDD` or `RDS` is above 5. -/
  | digitIndexOutOfRange
  /-- The register number of `RDR` is above 3. -/
  | registerOutOfRange
  /-- The operand of `WRC` is above 1. -/
  | controlValueOutOfRange
  deriving DecidableEq, Repr

/-- A command whose `rsv` must be 0 and whose `imm` must be in range (R73). -/
def accept (rsv : BitVec 4) (inRange : Bool) (why : DecodeError) (i : Instr) : Except DecodeError Instr :=
  if rsv ≠ 0#4 then .error .reservedBitsSet
  else if inRange then .ok i
  else .error why

/-- The command a word denotes (R73, R74), a word of a reserved opcode, or the name of what makes the word illegal
(R75). -/
def decode (w : CmdWord) : Except DecodeError Instr :=
  let rsv := rsvField w
  let imm := immField w
  match (opField w).toNat with
  | 0 => accept rsv (imm == 0) .operandNotZero .nop
  | 1 => accept rsv (imm == 0) .operandNotZero .init
  | 2 => accept rsv true .operandNotZero (.hrpb imm)
  | 3 => accept rsv (imm == 0) .operandNotZero .hrpend
  | 4 => accept rsv true .operandNotZero (.dig imm)
  | 5 => accept rsv true .operandNotZero (.sym imm)
  | 6 => accept rsv (imm == 0) .operandNotZero .csum
  | 7 => accept rsv (imm == 0) .operandNotZero .vrfy
  | 8 => accept rsv true .operandNotZero (.s2d imm)
  | 9 => accept rsv true .operandNotZero (.d2s imm)
  | 10 => accept rsv (decide (imm.toNat ≤ 5)) .digitIndexOutOfRange (.rdd (imm.extractLsb' 0 3))
  | 11 => accept rsv (decide (imm.toNat ≤ 5)) .digitIndexOutOfRange (.rds (imm.extractLsb' 0 3))
  | 12 => accept rsv (decide (imm.toNat ≤ 3)) .registerOutOfRange (.rdr (imm.extractLsb' 0 2))
  | 13 => accept rsv (decide (imm.toNat ≤ 1)) .controlValueOutOfRange (.wrc (imm.extractLsb' 0 1))
  | 14 => .ok (.reservedOp14 (restField w))
  | _ => .ok (.reservedOp15 (restField w))

/-- A word of the format C16 with `rsv` 0: `op ++ rsv ++ imm` (R70). -/
def commandWord (op : BitVec 4) (imm : Byte) : CmdWord := op ++ (0#4 ++ imm)

/-- The word of a command (R70, R74). -/
def encode : Instr → CmdWord
  | .nop => commandWord 0 0
  | .init => commandWord 1 0
  | .hrpb b => commandWord 2 b
  | .hrpend => commandWord 3 0
  | .dig d => commandWord 4 d
  | .sym c => commandWord 5 c
  | .csum => commandWord 6 0
  | .vrfy => commandWord 7 0
  | .s2d c => commandWord 8 c
  | .d2s d => commandWord 9 d
  | .rdd i => commandWord 10 (i.setWidth 8)
  | .rds i => commandWord 11 (i.setWidth 8)
  | .rdr n => commandWord 12 (n.setWidth 8)
  | .wrc v => commandWord 13 (v.setWidth 8)
  | .reservedOp14 rest => 14#4 ++ rest
  | .reservedOp15 rest => 15#4 ++ rest

/-- The instruction the decoder reads from the word `w` of `nbits` bits (the host's numbering: bit 0 is the least
significant bit of the one command word; bits above `nbits` are 0). -/
def decodeTableWord (nbits w : Nat) : Option Instr :=
  (decode (BitVec.ofNat 16 (w % 2 ^ nbits))).toOption

end Sys2Proof
end

