-- ==== Sys2Proof/Config.lean ====
section
/-! DEFINITION. The parameters of the hardware (spec/00_scope.md R6) and the one value the spec leaves open, the
latency LAT (R6, R217, R221). -/

namespace Sys2Proof.Config

/-- The generator constants GEN[0] to GEN[4] (R6, R130). -/
def gen : Fin 5 → Acc
  | 0 => 0x3b6a57b2#30
  | 1 => 0x26508e6d#30
  | 2 => 0x1ea119fa#30
  | 3 => 0x3d4233dd#30
  | 4 => 0x2a1462b3#30

/-- `POLYMOD_INIT`, the start value of the accumulator (R6, R131). -/
def polymodInit : Acc := 1#30

/-- `POLYMOD_OK`, the residue of a valid message (R6, R133). -/
def polymodOk : Acc := 1#30

/-- `CSUM_LEN`, the digits of a checksum (R6). -/
def csumLen : Nat := 6

/-- `HRP_MAX`, the longest HRP in bytes (R6, R111). -/
def hrpMax : Nat := 83

/-- `HRP_LO`, the least value of an HRP byte (R6, R111). -/
def hrpLo : Nat := 33

/-- `HRP_HI`, the greatest value of an HRP byte (R6, R111). -/
def hrpHi : Nat := 126

/-- `HBUF_N`, the entries of the HRP buffer (R6, R29). -/
def hbufSize : Nat := 83

/-- `ALPHA[0..31]`: the byte of each character of the alphabet `qpzry9x8gf2tvdw0s3jn54khce6mua7l`, index 0 first
(R90, R94). -/
def alphabet : List Byte :=
  [0x71, 0x70, 0x7A, 0x72, 0x79, 0x39, 0x78, 0x38] ++
  [0x67, 0x66, 0x32, 0x74, 0x76, 0x64, 0x77, 0x30] ++
  [0x73, 0x33, 0x6A, 0x6E, 0x35, 0x34, 0x6B, 0x68] ++
  [0x63, 0x65, 0x36, 0x6D, 0x75, 0x61, 0x37, 0x6C]

/-- FREE VALUE (log entry 12). One less than LAT: how many clock cycles beyond the first pass from the acceptance of a
command to the first edge that can sample its response (R6, R217: "any finite number, at least 1"). The arguments are
the number of commands accepted before and the command word, so that nothing relates two latencies. -/
opaque extraLatency : Nat → CmdWord → Nat

end Sys2Proof.Config
end

