-- ==== Sys2Proof/Machine/State.lean ====
section
/-! DEFINITION. The state of the machine: the architectural state of spec/10_state.md R20 (`Engine`), the response the
engine holds (R36), and the host's two word streams (R14, R217; log entries 1 and 3). -/

namespace Sys2Proof.Machine

/-- The phase of the current call (R23). The codes 6 and 7 are "never held" and are no phase (log entry 8). -/
inductive Phase where
  /-- 0: call opened, nothing absorbed. -/
  | idle
  /-- 1: one or more HRP bytes received, HRP not yet closed. -/
  | hrp
  /-- 2: data digits are being absorbed. -/
  | data
  /-- 3: `CSUM` done. -/
  | summed
  /-- 4: `VRFY` done without fault. -/
  | verified
  /-- 5: a command of this call faulted. -/
  | fault
  deriving DecidableEq, Repr

/-- The six checksum digit registers D[0] to D[5] (R22). -/
structure Digits where
  d0 : Digit
  d1 : Digit
  d2 : Digit
  d3 : Digit
  d4 : Digit
  d5 : Digit
  deriving DecidableEq, Repr

/-- All six digit registers 0 (R38, R161). -/
def Digits.zero : Digits := ⟨0, 0, 0, 0, 0, 0⟩

/-- The HRP buffer HBUF (R29, R51): entries of 5 bits by index, indexes rising, an entry equal to `hbufUnwritten` left
out (log entries 5 and 6). -/
abbrev Memory := List (Nat × Digit)

/-- What an entry of HBUF that the list does not hold reads as. DESIGN CHOICE (log entry 5): the spec leaves the content
unspecified and unobservable (R29, R38; spec/93_implementation_defined.md U4, "all zeros is simplest"). -/
def hbufUnwritten : Digit := 0#5

/-- The architectural state (R20: "exactly these fields"). -/
structure Engine where
  /-- `CHK`, the accumulator (R21). -/
  chk : Acc
  /-- `D[0]` to `D[5]`, the checksum digits (R22). -/
  d : Digits
  /-- `PHASE` (R23). -/
  phase : Phase
  /-- `ERR`, the code of the fault of this call, or 0 (R24). -/
  err : BitVec 4
  /-- `V`, the verdict of `VRFY` (R25). -/
  v : Bool
  /-- `HLEN`, the HRP bytes accepted in this call (R27). -/
  hlen : BitVec 7
  /-- `DCNT`, the data digits absorbed, saturating at 6 (R28). -/
  dcnt : BitVec 3
  /-- `CTRL.STRICT` (R31). -/
  strict : Bool
  /-- `HBUF` (R29). -/
  hbuf : Memory
  deriving DecidableEq, Repr

/-- What the host gives the engine next: a command word on the command port, or a reset (R14, R210). -/
inductive HostInput where
  | command (w : CmdWord)
  | reset
  deriving DecidableEq, Repr

/-- The state of the machine. -/
structure State where
  /-- The architectural state (R20). -/
  engine : Engine
  /-- The response word held for the host, `none` when no response is pending (R36). -/
  rsp : Option RspWord
  /-- The model's own: what the host still has to give, next first (log entry 1). -/
  inputs : List HostInput
  /-- The model's own: the responses transferred to the host, oldest first (R217; log entry 3). -/
  outputs : List RspWord
  deriving DecidableEq, Repr

/-- The reset values (R38, R211). -/
def Engine.reset : Engine where
  chk := Config.polymodInit
  d := Digits.zero
  phase := .idle
  err := 0#4
  v := false
  hlen := 0#7
  dcnt := 0#3
  strict := true
  hbuf := []

/-- The machine right after reset (R38, R211; log entry 14): no response pending; the host has given nothing. -/
def State.reset : State where
  engine := Engine.reset
  rsp := none
  inputs := []
  outputs := []

/-- Why the machine stops. The engine's own faults (R180) are no stops: they are next states. -/
inductive Fault where
  /-- Raised by `HRPB` and `HRPEND` when HLEN would make them access an HBUF entry above 82, which R51 says the engine
  never issues: only in states with HLEN above 83, which no run reaches. Safe (log entry 7). -/
  | hbufIndexOutOfRange
  deriving DecidableEq, Repr

/-- Why the model gives no meaning. -/
inductive Refusal where
  /-- Raised by an arm of `exec` whose instruction has no meaning yet; no arm raises it now. Safe. -/
  | notModelled (mnemonic : String)
  /-- Raised by the clock-level function alone, for a host that breaks its obligations of R218 (U6: "no move in the
  model"). Safe (log entry 13). -/
  | hostBrokeHandshake
  deriving DecidableEq, Repr

end Sys2Proof.Machine
end

