-- ==== Sys2Proof/Machine/Flags.lean ====
section
/-! DEFINITION. The flags and the readable registers (spec/10_state.md R30 to R34), the `fault` pin
(spec/60_exceptions.md R191) and the saturating count behind `TooShort` (R28). -/

namespace Sys2Proof.Machine

/-- The three bits of PHASE (R23). -/
def Phase.bits : Phase → BitVec 3
  | .idle => 0
  | .hrp => 1
  | .data => 2
  | .summed => 3
  | .verified => 4
  | .fault => 5

/-- The flag F and the `fault` pin: a view of `PHASE = FAULT` (R30, R34, R191). -/
def Engine.faultPin (e : Engine) : Bool := e.phase == .fault

/-- Register 0, STATUS: `V ++ ERR ++ F ++ PHASE`, upper bits 0 (R30, R162). -/
def Engine.statusReg (e : Engine) : Acc :=
  (BitVec.ofBool e.v ++ (e.err ++ (BitVec.ofBool e.faultPin ++ e.phase.bits))).setWidth 30

/-- Register 1, CTRL: STRICT in bit 0, upper bits 0 (R31). -/
def Engine.ctrlReg (e : Engine) : Acc := (BitVec.ofBool e.strict).setWidth 30

/-- Register 3, LEN: `DCNT ++ 0 ++ HLEN`, upper bits 0 (R33, R162). -/
def Engine.lenReg (e : Engine) : Acc := (e.dcnt ++ (0#1 ++ e.hlen)).setWidth 30

/-- Register `n` of the register space (R50, R57, R162). -/
def Engine.register (e : Engine) (n : BitVec 2) : Acc :=
  match n.toNat with
  | 0 => e.statusReg
  | 1 => e.ctrlReg
  | 2 => e.chk
  | _ => e.lenReg

/-- `min(DCNT + 1, 6)` (R28). -/
def countDigit (dcnt : BitVec 3) : BitVec 3 := BitVec.ofNat 3 (min (dcnt.toNat + 1) Config.csumLen)

/-- The value `VRFY` answers: 1 for a residue found, else 0 (R81, R140). -/
def verdictValue (ok : Bool) : Acc := (BitVec.ofBool ok).setWidth 30

end Sys2Proof.Machine
end

