-- ==== Sys2Proof/Machine/Operands.lean ====
section
/-! DEFINITION. The operand forms: the fields of `imm` (spec/30_encoding.md R72, R80), the validators (R99, R111) and
the two mapping functions of the alphabet (R91, R92). -/

namespace Sys2Proof.Machine

/-- `imm[4:0]`: the digit of a checked operand, or the low part of an HRP byte (R80, R113). -/
def lowDigit (imm : Byte) : Digit := imm.extractLsb' 0 5

/-- `zext_5(imm[7:5])`: the high part of an HRP byte, `b >> 5` (R110, R113). -/
def highDigit (imm : Byte) : Digit := (imm.extractLsb' 5 3).setWidth 5

/-- `validDigit(v)`: the operand is at most 31 (R99). -/
def validDigit (imm : Byte) : Bool := decide (imm.toNat ≤ 31)

/-- The byte is in the range of an HRP byte, 33 to 126 (R111, R113). -/
def validHrpByte (b : Byte) : Bool := decide (Config.hrpLo ≤ b.toNat) && decide (b.toNat ≤ Config.hrpHi)

/-- The position of `c` in a list of symbols whose first has position `i`. -/
def symbolPosition (c : Byte) : List Byte → Nat → Option Nat
  | [], _ => none
  | x :: xs, i => if x = c then some i else symbolPosition c xs (i + 1)

/-- `s2d(c)`, the source's `symbolToDigit`: the digit of a symbol byte, no result for any other byte (R91, R95). -/
def s2d (c : Byte) : Option Digit := (symbolPosition c Config.alphabet 0).map (BitVec.ofNat 5)

/-- `d2s(d)`, the source's `digitToSymbol`: the symbol byte of a digit (R92). -/
def d2s (d : Digit) : Byte := Config.alphabet.getD d.toNat 0

/-- `D[i]`; the index is 0 to 5 in a legal command (R22, R73), and an index above 5 never gets here. -/
def Digits.read (d : Digits) (i : BitVec 3) : Digit :=
  match i.toNat with
  | 0 => d.d0
  | 1 => d.d1
  | 2 => d.d2
  | 3 => d.d3
  | 4 => d.d4
  | _ => d.d5

/-- The six 5-bit fields of a 30-bit value, most significant first (R53, R132, R139). -/
def Digits.ofPacked (t : Acc) : Digits where
  d0 := t.extractLsb' 25 5
  d1 := t.extractLsb' 20 5
  d2 := t.extractLsb' 15 5
  d3 := t.extractLsb' 10 5
  d4 := t.extractLsb' 5 5
  d5 := t.extractLsb' 0 5

/-- The six digits in order, first digit first (R53). -/
def Digits.toList (d : Digits) : List Digit := [d.d0, d.d1, d.d2, d.d3, d.d4, d.d5]

end Sys2Proof.Machine
end

