-- ==== Sys2Proof/Machine/Ops.lean ====
section
/-! DEFINITION. The shared operations: HBUF accesses, the polynomial step, responses, fault entry and the way out of a
fault, the legality of a command in a phase, and the procedure that executes one command (spec/43_system.md R166). -/

namespace Sys2Proof.Machine

/-! ### HBUF (spec/20_memory.md R51) -/

/-- Entry `k` as the list has it. -/
def Memory.lookup : Memory → Nat → Digit
  | [], _ => hbufUnwritten
  | (a, x) :: rest, k => if a = k then x else Memory.lookup rest k

/-- The list with entry `k` holding `v`, in the canonical form. -/
def Memory.set : Memory → Nat → Digit → Memory
  | [], k, v => if v = hbufUnwritten then [] else [(k, v)]
  | (a, x) :: rest, k, v =>
    if a = k then (if v = hbufUnwritten then rest else (k, v) :: rest)
    else if k < a then (if v = hbufUnwritten then (a, x) :: rest else (k, v) :: (a, x) :: rest)
    else (a, x) :: Memory.set rest k v

/-- The canonical form from index `lo` on: indexes rising and below 83, no entry equal to what an unlisted entry reads
as. -/
def Memory.wfFrom : Nat → Memory → Bool
  | _, [] => true
  | lo, (a, x) :: rest =>
    decide (lo ≤ a) && decide (a < Config.hbufSize) && !(x == hbufUnwritten) && Memory.wfFrom (a + 1) rest

/-- The canonical form of HBUF. -/
def Memory.wf (m : Memory) : Bool := Memory.wfFrom 0 m

/-- `MemRead(k, 1)`; `none` for an index that does not exist (R51). -/
def Memory.read (m : Memory) (k : Nat) : Option Digit :=
  if k < Config.hbufSize then some (m.lookup k) else none

/-- `MemWrite(k, 1, v)`; `none` for an index that does not exist (R51). -/
def Memory.write (m : Memory) (k : Nat) (v : Digit) : Option Memory :=
  if k < Config.hbufSize then some (m.set k v) else none

/-- Entries 0 to `n - 1` in ascending order (R114). -/
def Memory.readFirst (m : Memory) : Nat → Option (List Digit)
  | 0 => some []
  | n + 1 =>
    match m.readFirst n, m.read n with
    | some vs, some v => some (vs ++ [v])
    | _, _ => none

/-! ### The polynomial step (spec/42_checksum.md R130) -/

/-- `GEN[i]` if bit `i` of `b` is set, else 0. -/
def selected (b : Digit) (i : Fin 5) : Acc := if b.getLsbD i.val then Config.gen i else 0#30

/-- The exclusive OR of the generator constants that `b` selects (R130; their order does not matter). -/
def feedback (b : Digit) : Acc := selected b 0 ^^^ selected b 1 ^^^ selected b 2 ^^^ selected b 3 ^^^ selected b 4

/-- `absorb(chk, v)` (R130): `((chk & 0x1ffffff) << 5) XOR v`, then the constants that bits 29:25 of the old `chk`
select. -/
def absorb (chk : Acc) (v : Digit) : Acc :=
  ((chk &&& 0x1ffffff#30) <<< 5) ^^^ v.setWidth 30 ^^^ feedback (chk.extractLsb' 25 5)

/-- Absorbing a sequence of digits in order. -/
def absorbAll (chk : Acc) (vs : List Digit) : Acc := vs.foldl absorb chk

/-! ### Responses (R71, R81), fault entry (R186), refusal (R187) -/

/-- The fault codes by name (R181). -/
inductive FaultCode where
  | invalidHrp
  | invalidSymbol
  | tooShort
  | checksumMismatch
  | invalidDigit
  | illegalCommand
  | phaseError
  deriving DecidableEq, Repr

/-- The number of a fault code (R181). -/
def FaultCode.code : FaultCode → BitVec 4
  | .invalidHrp => 1
  | .invalidSymbol => 2
  | .tooShort => 3
  | .checksumMismatch => 4
  | .invalidDigit => 5
  | .illegalCommand => 6
  | .phaseError => 7

/-- A response with `E = 0` (R71). -/
def okWord (data : Acc) : RspWord := 0b00#2 ++ data

/-- A response with `E = 1`: `0x80000000 | code` (R71, R186). -/
def errorWord (code : BitVec 4) : RspWord := 0b10#2 ++ code.setWidth 30

/-- What executing one command gives: the next architectural state and the response word (R14). -/
structure Reply where
  engine : Engine
  rsp : RspWord
  deriving DecidableEq, Repr

/-- What the body of a command gives. -/
abbrev Result := Host.Outcome Reply Fault Refusal

/-- `respond(v)` in the state `e` (R11). -/
def respond (e : Engine) (data : Acc) : Result := .next ⟨e, okWord data⟩

/-- The state a fault leaves: only PHASE and ERR are written (R186). -/
def Engine.enterFault (e : Engine) (c : FaultCode) : Engine := { e with phase := .fault, err := c.code }

/-- TAKING A FAULT, `raise Fault(code)` (R11, R186, R190), in the state before the command. -/
def raise (e : Engine) (c : FaultCode) : Result := .next ⟨e.enterFault c, errorWord c.code⟩

/-- A command refused in phase FAULT: `E = 1, DATA = ERR`, no state changes (R187). -/
def refuse (e : Engine) : Result := .next ⟨e, errorWord e.err⟩

/-- THE WAY OUT OF A FAULT, and the opening of every call: what `INIT` writes, everything but STRICT and HBUF (R161,
R188). -/
def Engine.openCall (e : Engine) : Engine :=
  { e with
    chk := Config.polymodInit, d := Digits.zero, phase := .idle, err := 0#4, v := false, hlen := 0#7, dcnt := 0#3 }

/-! ### Executing one command (R164, R166) -/

/-- `phaseOk(op, PHASE)`: the cell of the table of R164 is `ok`. In the column FAULT it is so for the four commands that
R187 lets execute. A reserved opcode has no row of its own. -/
def phaseOk : Instr → Phase → Bool
  | .nop, _ => true
  | .init, _ => true
  | .rdr _, _ => true
  | .wrc _, _ => true
  | .s2d _, p => p != .fault
  | .d2s _, p => p != .fault
  | .hrpb _, p => p == .idle || p == .hrp
  | .hrpend, p => p == .idle || p == .hrp
  | .dig _, p => p == .idle || p == .data
  | .sym _, p => p == .idle || p == .data
  | .csum, p => p == .idle || p == .data
  | .vrfy, p => p == .idle || p == .data
  | .rdd _, p => p == .summed
  | .rds _, p => p == .summed
  | .reservedOp14 _, _ => false
  | .reservedOp15 _, _ => false

/-- An illegal word (R75): refused in phase FAULT, else the fault `IllegalCommand`. -/
def illegal (e : Engine) : Result := if e.phase = .fault then refuse e else raise e .illegalCommand

/-- The tests before a command's own rule, in the order of R166 and R184: phase FAULT, legality, phase. -/
def guarded (i : Instr) (e : Engine) (body : Engine → Result) : Result :=
  if e.phase = .fault then
    if i.legal && phaseOk i .fault then body e else refuse e
  else if !i.legal then raise e .illegalCommand
  else if !phaseOk i e.phase then raise e .phaseError
  else body e

/-- Puts the outcome of a command into the machine's state: the architectural state, and the response the engine then
holds (R36). -/
def commit (s : State) : Result → Host.Outcome State Fault Refusal
  | .next r => .next { s with engine := r.engine, rsp := some r.rsp }
  | .fault f => .fault f
  | .refused r => .refused r

/-- One command whose own rule is `body` (R166). -/
def runCommand (i : Instr) (s : State) (body : Engine → Result) : Host.Outcome State Fault Refusal :=
  commit s (guarded i s.engine body)

/-! ### The response port (R217) -/

/-- The held response, if any, is transferred to the host. -/
def State.transfer (s : State) : State :=
  match s.rsp with
  | none => s
  | some r => { s with rsp := none, outputs := s.outputs ++ [r] }

end Sys2Proof.Machine
end

