-- ==== Sys2Proof/Machine/Checksum.lean ====
section
/-! DEFINITION. The checksum commands DIG, SYM, CSUM, VRFY, RDD and RDS (spec/42_checksum.md). -/

namespace Sys2Proof.Machine

/-- What `DIG` and `SYM` leave when they absorb the digit `v` (R137, R138). -/
def Engine.takeDigit (e : Engine) (v : Digit) : Engine :=
  { e with chk := absorb e.chk v, dcnt := countDigit e.dcnt, phase := .data }

/-- The accumulator after the six zero digits of `CSUM` (R139). -/
def afterZeros (chk : Acc) : Acc := absorbAll chk (List.replicate Config.csumLen 0)

/-- What `CSUM` leaves (R139). -/
def Engine.sum (e : Engine) : Engine :=
  { e with chk := afterZeros e.chk, d := Digits.ofPacked (afterZeros e.chk ^^^ 1), phase := .summed }

/-- What `VRFY` leaves when it does not fault (R140). -/
def Engine.judge (e : Engine) (ok : Bool) : Engine := { e with v := ok, phase := .verified }

/-- `DIG d` (R137). -/
def execDig (d : Byte) (s : State) : Host.Outcome State Fault Refusal :=
  runCommand (.dig d) s fun e =>
    if !validDigit d then raise e .invalidDigit
    else respond (e.takeDigit (lowDigit d)) 0

/-- `SYM c` (R138). -/
def execSym (c : Byte) (s : State) : Host.Outcome State Fault Refusal :=
  runCommand (.sym c) s fun e =>
    match s2d c with
    | none => raise e .invalidSymbol
    | some r => respond (e.takeDigit r) (r.setWidth 30)

/-- `CSUM` (R139). -/
def execCsum (s : State) : Host.Outcome State Fault Refusal :=
  runCommand .csum s fun e => respond e.sum (afterZeros e.chk ^^^ 1)

/-- `VRFY` (R140). -/
def execVrfy (s : State) : Host.Outcome State Fault Refusal :=
  runCommand .vrfy s fun e =>
    if e.dcnt.toNat < Config.csumLen then raise e .tooShort
    else if e.chk != Config.polymodOk && e.strict then raise e .checksumMismatch
    else respond (e.judge (e.chk == Config.polymodOk)) (verdictValue (e.chk == Config.polymodOk))

/-- `RDD i` (R141). -/
def execRdd (i : BitVec 3) (s : State) : Host.Outcome State Fault Refusal :=
  runCommand (.rdd i) s fun e => respond e ((e.d.read i).setWidth 30)

/-- `RDS i` (R142). -/
def execRds (i : BitVec 3) (s : State) : Host.Outcome State Fault Refusal :=
  runCommand (.rds i) s fun e => respond e ((d2s (e.d.read i)).setWidth 30)

end Sys2Proof.Machine
end

