-- ==== Sys2Proof/Machine/Hrp.lean ====
section
/-! DEFINITION. The HRP commands HRPB and HRPEND (spec/41_hrp.md). -/

namespace Sys2Proof.Machine

/-- What `HRPB` leaves when it accepts the byte, with HBUF already written (R113). -/
def Engine.takeHrpByte (e : Engine) (b : Byte) (hbuf : Memory) : Engine :=
  { e with hbuf := hbuf, chk := absorb e.chk (highDigit b), hlen := e.hlen + 1#7, phase := .hrp }

/-- What `HRPEND` leaves, after the low parts `lows` were read (R114). -/
def Engine.closeHrp (e : Engine) (lows : List Digit) : Engine :=
  { e with chk := absorbAll (absorb e.chk 0) lows, dcnt := 0#3, phase := .data }

/-- `HRPB b` (R113). -/
def execHrpb (b : Byte) (s : State) : Host.Outcome State Fault Refusal :=
  runCommand (.hrpb b) s fun e =>
    if e.hlen.toNat = Config.hrpMax || !validHrpByte b then raise e .invalidHrp
    else
      match e.hbuf.write e.hlen.toNat (lowDigit b) with
      | none => .fault .hbufIndexOutOfRange
      | some hbuf => respond (e.takeHrpByte b hbuf) 0

/-- `HRPEND` (R114). -/
def execHrpend (s : State) : Host.Outcome State Fault Refusal :=
  runCommand .hrpend s fun e =>
    if e.hlen = 0#7 then raise e .invalidHrp
    else
      match e.hbuf.readFirst e.hlen.toNat with
      | none => .fault .hbufIndexOutOfRange
      | some lows => respond (e.closeHrp lows) 0

end Sys2Proof.Machine
end

