-- ==== Sys2Proof/Machine/Mapper.lean ====
section
/-! DEFINITION. The mapper commands S2D and D2S (spec/40_alphabet_mapper.md). -/

namespace Sys2Proof.Machine

/-- `S2D c` (R96). -/
def execS2d (c : Byte) (s : State) : Host.Outcome State Fault Refusal :=
  runCommand (.s2d c) s fun e =>
    match s2d c with
    | none => raise e .invalidSymbol
    | some r => respond e (r.setWidth 30)

/-- `D2S d` (R97). -/
def execD2s (d : Byte) (s : State) : Host.Outcome State Fault Refusal :=
  runCommand (.d2s d) s fun e =>
    if !validDigit d then raise e .invalidDigit
    else respond e ((d2s (lowDigit d)).setWidth 30)

end Sys2Proof.Machine
end

