-- ==== Sys2Proof/Machine/Reserved.lean ====
section
/-! DEFINITION. The words of the reserved opcodes 14 and 15: illegal commands (spec/30_encoding.md R75, R76; log entry
9). -/

namespace Sys2Proof.Machine

/-- A word of opcode 14 (R75): the fault `IllegalCommand`, or a refusal in phase FAULT (R187). -/
def execReservedOp14 (rest : BitVec 12) (s : State) : Host.Outcome State Fault Refusal :=
  runCommand (.reservedOp14 rest) s illegal

/-- A word of opcode 15 (R75): the fault `IllegalCommand`, or a refusal in phase FAULT (R187). -/
def execReservedOp15 (rest : BitVec 12) (s : State) : Host.Outcome State Fault Refusal :=
  runCommand (.reservedOp15 rest) s illegal

end Sys2Proof.Machine
end

