-- ==== Sys2Proof/Machine/System.lean ====
section
/-! DEFINITION. The system commands NOP, INIT, RDR and WRC (spec/43_system.md). -/

namespace Sys2Proof.Machine

/-- What `WRC` leaves: STRICT alone is written (R163). -/
def Engine.writeCtrl (e : Engine) (v : BitVec 1) : Engine := { e with strict := v == 1#1 }

/-- `NOP` (R160). -/
def execNop (s : State) : Host.Outcome State Fault Refusal :=
  runCommand .nop s fun e => respond e 0

/-- `INIT` (R161): also the only command that leaves phase FAULT (R188). -/
def execInit (s : State) : Host.Outcome State Fault Refusal :=
  runCommand .init s fun e => respond e.openCall 0

/-- `RDR n` (R162). -/
def execRdr (n : BitVec 2) (s : State) : Host.Outcome State Fault Refusal :=
  runCommand (.rdr n) s fun e => respond e (e.register n)

/-- `WRC v` (R163). -/
def execWrc (v : BitVec 1) (s : State) : Host.Outcome State Fault Refusal :=
  runCommand (.wrc v) s fun e => respond (e.writeCtrl v) 0

end Sys2Proof.Machine
end

