-- ==== Sys2Proof/Machine/Dispatch.lean ====
section
/-! DEFINITION. Executing one instruction: one arm per constructor of `Instr`. -/

namespace Sys2Proof.Machine

/-- The meaning of one command word that the decoder read (spec/43_system.md R166). -/
def exec (i : Instr) (s : State) : Host.Outcome State Fault Refusal :=
  match i with
  | .nop => Sys2Proof.Machine.execNop s
  | .init => Sys2Proof.Machine.execInit s
  | .hrpb b => Sys2Proof.Machine.execHrpb b s
  | .hrpend => Sys2Proof.Machine.execHrpend s
  | .dig d => Sys2Proof.Machine.execDig d s
  | .sym c => Sys2Proof.Machine.execSym c s
  | .csum => Sys2Proof.Machine.execCsum s
  | .vrfy => Sys2Proof.Machine.execVrfy s
  | .s2d c => Sys2Proof.Machine.execS2d c s
  | .d2s d => Sys2Proof.Machine.execD2s d s
  | .rdd n => Sys2Proof.Machine.execRdd n s
  | .rds n => Sys2Proof.Machine.execRds n s
  | .rdr n => Sys2Proof.Machine.execRdr n s
  | .wrc v => Sys2Proof.Machine.execWrc v s
  | .reservedOp14 r => Sys2Proof.Machine.execReservedOp14 r s
  | .reservedOp15 r => Sys2Proof.Machine.execReservedOp15 r s

end Sys2Proof.Machine
end

