-- ==== Sys2Proof/Machine/Transact.lean ====
section
/-! DEFINITION. One transaction: a command word in, a response word held (spec/43_system.md R166), and a reset
(spec/70_reset_and_hazards.md R210, R212). `step` and the clock-level function call these. -/

namespace Sys2Proof.Machine

/-- A word that is no command (R75), whatever makes it illegal. -/
def rejectWord (_why : DecodeError) (s : State) : Host.Outcome State Fault Refusal := commit s (illegal s.engine)

/-- `step(S, w)` of R166: the engine executes the command word `w`. -/
def runWord (w : CmdWord) (s : State) : Host.Outcome State Fault Refusal :=
  match decode w with
  | .ok i => exec i s
  | .error why => rejectWord why s

/-- Reset (R210): the engine's state becomes the reset state, a constant (R212); a held response is dropped. The host's
own records are not the engine's and stay. -/
def State.resetEngine (s : State) : State := { s with engine := Engine.reset, rsp := none }

/-- One transaction of R14. A held response is transferred first: a command is accepted "only after response n has been
transferred" (R217; log entry 2). Then the engine takes the host's next input; with none it waits (R57, R215; log entry
4). -/
def transact (s : State) : Host.Outcome State Fault Refusal :=
  match s.inputs with
  | [] => .next s.transfer
  | .command w :: rest => runWord w { s.transfer with inputs := rest }
  | .reset :: rest => .next (State.resetEngine { s.transfer with inputs := rest })

end Sys2Proof.Machine
end

