-- ==== Sys2Proof/Machine/Step.lean ====
section
/-! DEFINITION. One step of the machine, at the transaction level (spec/00_scope.md R14), and where it takes its next
command word from. -/

namespace Sys2Proof.Machine

/-- One step: the execution of one command, or a reset, or waiting for the host (R14, R166). -/
def step (s : State) : Host.Outcome State Fault Refusal := transact s

/-- `s` with the word `w` of `nbits` bits put where `step` takes its next command word from: first among the host's
inputs (log entry 1). -/
def State.withFetchWord (s : State) (nbits w : Nat) : State :=
  { s with inputs := .command (BitVec.ofNat 16 (w % 2 ^ nbits)) :: s.inputs }

end Sys2Proof.Machine
end

