-- ==== Sys2Proof/Machine/Calls.lean ====
section
/-! DEFINITION. Programs: lists of commands the host gives in order (spec/10_state.md R26, spec/00_scope.md R17), and
the pseudo-instructions of the assembler (spec/30_encoding.md R79). -/

namespace Sys2Proof.Machine

/-- The state with the words `ws` put first among the host's inputs. -/
def State.loadWords (s : State) (ws : List CmdWord) : State :=
  { s with inputs := ws.map HostInput.command ++ s.inputs }

/-- The state with the program `is` put first among the host's inputs, each command as its word. -/
def State.load (s : State) (is : List Instr) : State := s.loadWords (is.map encode)

/-- The engine executes the words of a list one after another, each response transferred before the next word (R59,
R217). -/
def runWords : List CmdWord → State → Host.Outcome State Fault Refusal
  | [], s => .next s
  | w :: ws, s =>
    match runWord w s.transfer with
    | .next t => runWords ws t
    | .fault f => .fault f
    | .refused r => .refused r

/-- `HRP "s"` (R79). -/
def hrpProgram (h : List Byte) : List Instr := h.map Instr.hrpb ++ [.hrpend]

/-- `DIGS d0, ..., dn-1` (R79); for no digit the empty program, which no `DIGS` line gives (log entry 15). -/
def digsProgram (ds : List Digit) : List Instr := ds.map fun d => .dig (d.setWidth 8)

/-- `SYMS "s"` (R79). -/
def symsProgram (cs : List Byte) : List Instr := cs.map Instr.sym

/-- `RDSUM` (R79). -/
def rdsumProgram : List Instr := [.rds 0, .rds 1, .rds 2, .rds 3, .rds 4, .rds 5]

end Sys2Proof.Machine
end

