-- ==== Sys2Proof/Machine/Ports.lean ====
section
/-! DEFINITION. The ports of the block and their handshake, one clock edge at a time (spec/70_reset_and_hazards.md R210,
R216 to R218; spec/10_state.md R36). It carries the transactions of Machine/Transact.lean and adds none (R14). -/

namespace Sys2Proof.Machine

/-- The input pins at a rising edge of `clk` (R216). -/
structure PinsIn where
  rst : Bool
  cmdValid : Bool
  cmdData : CmdWord
  rspReady : Bool
  deriving DecidableEq, Repr

/-- The output pins before a rising edge (R216). -/
structure PinsOut where
  cmdReady : Bool
  /-- `some r`: `rsp_valid = 1` with `r` on `rsp_data`; `none`: `rsp_valid = 0`, and `rsp_data` has no
  value in the model (log entry 17). -/
  rsp : Option RspWord
  fault : Bool
  deriving DecidableEq, Repr

/-- The engine at the clock level: its state with the response it holds (R36), and the model's own count of LAT and
record of what the host offers (log entries 11 to 13). -/
structure PortState where
  core : State
  /-- Cycles left until `rsp_valid` rises, while a response is pending (R217). -/
  wait : Nat
  /-- The word the host offers and the engine has not accepted (R218). -/
  offered : Option CmdWord
  /-- How many commands were accepted: the argument of the free value LAT. -/
  accepted : Nat
  deriving DecidableEq, Repr

/-- The ports right after reset (R211). -/
def PortState.reset : PortState := ⟨State.reset, 0, none, 0⟩

/-- The output pins (R191, R211, R217). `cmd_ready` is 1 whenever no response is pending, so already right after the first
reset edge: a DESIGN CHOICE while `rst` stays 1, where R211 fixes no value, and right after a transfer: DEDUCED from
R217 (log entry 16). -/
def PortState.out (p : PortState) : PinsOut where
  cmdReady := p.core.rsp.isNone
  rsp := if p.wait = 0 then p.core.rsp else none
  fault := p.core.engine.faultPin

/-- The host keeps a word it has offered until the word is accepted (R218). -/
def PortState.hostKeepsOffer (p : PortState) (i : PinsIn) : Bool :=
  match p.offered with
  | none => true
  | some w => i.cmdValid && i.cmdData == w

/-- A command word is accepted at this edge (R217). -/
def PortState.accepts (p : PortState) (i : PinsIn) : Bool := !i.rst && i.cmdValid && p.out.cmdReady

/-- A response word is transferred at this edge (R217). -/
def PortState.transfers (p : PortState) (i : PinsIn) : Bool := !i.rst && p.out.rsp.isSome && i.rspReady

/-- The ports after the edge that accepted a command which left the state `t` (R36, R217; log entries 11 and 12). LAT is
counted to the first edge at which `rsp_valid` can be sampled 1, so that with `extraLatency` 0 (LAT 1) `rsp_valid` is 1
from the accepting edge on: a DESIGN CHOICE, R6 and R217 do not say to which edge LAT counts (log entry 12). -/
def PortState.afterAccept (p : PortState) (w : CmdWord) (t : State) : PortState :=
  { core := t, wait := Config.extraLatency p.accepted w, offered := none, accepted := p.accepted + 1 }

/-- One rising edge of `clk`. `rst` overrides everything (R210); a host that breaks R218 has no move (U6). -/
def clock (p : PortState) (i : PinsIn) : Host.Outcome PortState Fault Refusal :=
  if i.rst then .next { p with core := p.core.resetEngine, wait := 0, offered := none }
  else if !p.hostKeepsOffer i then .refused .hostBrokeHandshake
  else if p.accepts i then
    match runWord i.cmdData p.core with
    | .next t => .next (p.afterAccept i.cmdData t)
    | .fault f => .fault f
    | .refused r => .refused r
  else
    .next
      { p with
        core := if p.transfers i then p.core.transfer else p.core
        wait := p.wait - 1
        offered := if i.cmdValid then some i.cmdData else none }

/-- A sequence of rising edges. -/
def clockRun : List PinsIn → PortState → Host.Outcome PortState Fault Refusal
  | [], p => .next p
  | i :: is, p =>
    match clock p i with
    | .next q => clockRun is q
    | .fault f => .fault f
    | .refused r => .refused r

/-- The words accepted in a sequence of edges, first one first (R217: the inputs of the transaction level). -/
def acceptedWords : List PinsIn → PortState → List CmdWord
  | [], _ => []
  | i :: is, p =>
    match clock p i with
    | .next q => (if p.accepts i then [i.cmdData] else []) ++ acceptedWords is q
    | .fault _ => []
    | .refused _ => []

end Sys2Proof.Machine
end

