-- ==== Sys2Proof/Machine/Reference.lean ====
section
/-! DEFINITION. The source's functions, which the commands compute piece by piece (spec/00_scope.md R13). -/

namespace Sys2Proof.Machine

/-- `polymod(values)` (R131). -/
def polymod (vs : List Digit) : Acc := absorbAll Config.polymodInit vs

/-- `hrpExpand(hrp)` (R110). -/
def hrpExpand (h : List Byte) : List Digit := h.map highDigit ++ [0] ++ h.map lowDigit

/-- `validHrp(hrp)` (R111). -/
def validHrp (h : List Byte) : Bool :=
  decide (1 ≤ h.length) && decide (h.length ≤ Config.hrpMax) && h.all validHrpByte

/-- `createChecksum(hrp, dataDigits)` (R132). -/
def createChecksum (h : List Byte) (ds : List Digit) : Digits :=
  Digits.ofPacked (polymod (hrpExpand h ++ ds ++ List.replicate Config.csumLen 0) ^^^ 1)

/-- `verifyChecksum(hrp, dataDigitsWithChecksum)` (R133). -/
def verifyChecksum (h : List Byte) (ds : List Digit) : Bool := polymod (hrpExpand h ++ ds) == Config.polymodOk

end Sys2Proof.Machine
end

