-- ==== Sys2Proof/Safety.lean ====
section
/-! DEFINITION. The words in which statements about the machine are made: the invariant (spec/10_state.md R37), the
three ways a command is answered (spec/30_encoding.md R71), the tables of R73, R75 and R164. Nothing of the machine
calls this file; each notion is written from its rule, not from the machine's own helpers. -/

namespace Sys2Proof.Machine

/-- The invariants of R37, one field each, with R24, R25, R27, R28 and the canonical form of HBUF. That CHK is below
2^30 and PHASE at most 5 is in the types. -/
structure Engine.Inv (e : Engine) : Prop where
  /-- `ERR = 0` if and only if PHASE is not FAULT (R24). -/
  err_zero_iff : e.err = 0#4 ↔ e.phase ≠ .fault
  /-- `ERR ≤ 7` (R181). -/
  err_le : e.err.toNat ≤ 7
  /-- `HLEN ≤ 83` (R27). -/
  hlen_le : e.hlen.toNat ≤ 83
  /-- In phase HRP at least one byte was accepted. -/
  hrp_hlen : e.phase = .hrp → 1 ≤ e.hlen.toNat
  /-- In phase IDLE the call is fresh. -/
  idle_fresh : e.phase = .idle → e.hlen = 0#7 ∧ e.dcnt = 0#3 ∧ e.chk = 1#30 ∧ e.v = false
  /-- `DCNT ≤ 6` (R28). -/
  dcnt_le : e.dcnt.toNat ≤ 6
  /-- No data digit before the HRP is closed. -/
  hrp_dcnt : e.phase = .hrp → e.dcnt = 0#3
  /-- `V = 1` implies `CHK = 1` and PHASE is VERIFIED or FAULT (R25). -/
  v_verdict : e.v = true → e.chk = 1#30 ∧ (e.phase = .verified ∨ e.phase = .fault)
  /-- In phase SUMMED D holds the checksum, `CHK ^ 1` cut into digits (R139). -/
  summed_digits : e.phase = .summed → e.d = Digits.ofPacked (e.chk ^^^ 1#30)
  /-- In phases IDLE, HRP, DATA and VERIFIED D is 0. -/
  unsummed_digits : e.phase ≠ .summed → e.phase ≠ .fault → e.d = Digits.zero
  /-- In phase FAULT D is 0 or the checksum of the call. -/
  fault_digits : e.phase = .fault → e.d = Digits.zero ∨ e.d = Digits.ofPacked (e.chk ^^^ 1#30)
  /-- HBUF is in its canonical form (log entry 5). -/
  hbuf_wf : e.hbuf.wf = true

/-- The invariant of the whole state: that of the engine. The host's streams may hold anything. -/
def State.Inv (s : State) : Prop := s.engine.Inv

/-! ### How a command is answered -/

/-- `s` after a command that completes: the architectural state is `e`, and the response has `E = 0` and DATA `data`
(R71). -/
def State.completes (s : State) (e : Engine) (data : Nat) : State :=
  { s with engine := e, rsp := some (BitVec.ofNat 32 data) }

/-- `s` after a command that faults with the code `c`: PHASE and ERR alone are written, and the response is
`0x80000000 | c` (R71, R186). -/
def State.faulted (s : State) (c : Nat) : State :=
  { s with
    engine := { s.engine with phase := .fault, err := BitVec.ofNat 4 c }
    rsp := some (BitVec.ofNat 32 (0x80000000 + c)) }

/-- `s` after a command refused in phase FAULT: no architectural state changes, and the response is
`0x80000000 | ERR` (R71, R187). -/
def State.turnedAway (s : State) : State :=
  { s with rsp := some (BitVec.ofNat 32 (0x80000000 + s.engine.err.toNat)) }

/-- The flag E of a response word (R34, R71). -/
def errorFlag (r : RspWord) : Bool := r.getLsbD 31

/-- The response held is one with `E = 0` (R71). -/
def State.answeredOk (s : State) : Prop := ∃ r, s.rsp = some r ∧ errorFlag r = false

/-- The response held is one with `E = 1` (R71). -/
def State.answeredError (s : State) : Prop := ∃ r, s.rsp = some r ∧ errorFlag r = true

/-- The number of a phase (R23). -/
def Phase.number : Phase → Nat
  | .idle => 0
  | .hrp => 1
  | .data => 2
  | .summed => 3
  | .verified => 4
  | .fault => 5

/-- A call is open and nothing was done in it yet: the state after reset or `INIT` (R17, R161, R213). -/
def Engine.fresh (e : Engine) : Prop :=
  e.chk = 1#30 ∧ e.d = ⟨0, 0, 0, 0, 0, 0⟩ ∧ e.phase = .idle ∧ e.err = 0#4 ∧ e.v = false ∧ e.hlen = 0#7 ∧ e.dcnt = 0#3

/-- Two architectural states that differ only in entries of HBUF the current call has not written (R29). -/
def Engine.sameCall (e f : Engine) : Prop :=
  { e with hbuf := [] } = { f with hbuf := [] } ∧ ∀ k, k < e.hlen.toNat → e.hbuf.read k = f.hbuf.read k

/-! ### The tables of the spec -/

/-- A cell of the table of R164. -/
inductive Cell where
  | ok
  | phaseError
  | refused
  deriving DecidableEq, Repr

/-- The cell of a row of R164, the columns in the order IDLE, HRP, DATA, SUMMED, VERIFIED, FAULT. -/
def Cell.ofRow (idle hrp data summed verified fault : Cell) : Phase → Cell
  | .idle => idle
  | .hrp => hrp
  | .data => data
  | .summed => summed
  | .verified => verified
  | .fault => fault

/-- The table of R164, row for row; `none` for the reserved opcodes, whose words are in the row of illegal words. -/
def legalityTable (i : Instr) (p : Phase) : Option Cell :=
  match i with
  | .nop | .init | .rdr _ | .wrc _ => some (Cell.ofRow .ok .ok .ok .ok .ok .ok p)
  | .s2d _ | .d2s _ => some (Cell.ofRow .ok .ok .ok .ok .ok .refused p)
  | .hrpb _ | .hrpend => some (Cell.ofRow .ok .ok .phaseError .phaseError .phaseError .refused p)
  | .dig _ | .sym _ | .csum | .vrfy => some (Cell.ofRow .ok .phaseError .ok .phaseError .phaseError .refused p)
  | .rdd _ | .rds _ => some (Cell.ofRow .phaseError .phaseError .phaseError .ok .phaseError .refused p)
  | .reservedOp14 _ | .reservedOp15 _ => none

/-- The predicate `legal(w)` of R73 on the number of the word. -/
def legalByR73 (w : Nat) : Prop :=
  let op := w / 4096
  let rsv := w / 256 % 16
  let imm := w % 256
  rsv = 0 ∧ op ≤ 13 ∧ (op ∈ [0, 1, 3, 6, 7] → imm = 0) ∧ (op ∈ [10, 11] → imm ≤ 5) ∧ (op = 12 → imm ≤ 3) ∧
    (op = 13 → imm ≤ 1)

/-- A word that R75 lists as illegal. -/
def illegalByR75 (w : Nat) : Prop :=
  let op := w / 4096
  let rsv := w / 256 % 16
  let imm := w % 256
  14 ≤ op ∨ rsv ≠ 0 ∨ (op ∈ [0, 1, 3, 6, 7] ∧ imm ≠ 0) ∨ (op ∈ [10, 11] ∧ 6 ≤ imm) ∨ (op = 12 ∧ 4 ≤ imm) ∨
    (op = 13 ∧ 2 ≤ imm)

/-- The digits a list of commands feeds to the accumulator, in order, when none of them faults (R143); `lows` are the
low parts buffered so far. -/
def fedDigits : List Digit → List Instr → List Digit
  | _, [] => []
  | lows, .hrpb b :: is => BitVec.ofNat 5 (b.toNat / 32) :: fedDigits (lows ++ [BitVec.ofNat 5 (b.toNat % 32)]) is
  | lows, .hrpend :: is => 0 :: lows ++ fedDigits lows is
  | lows, .dig d :: is => BitVec.ofNat 5 d.toNat :: fedDigits lows is
  | lows, .sym c :: is => (s2d c).toList ++ fedDigits lows is
  | lows, _ :: is => fedDigits lows is

end Sys2Proof.Machine
end

