-- ==== Sys2Proof/Certificates/Slice0/Obligations.lean ====
section
/-! DEFINITION. The statements for the provers. Each docstring names the rule of spec/ it formalises. `s.completes e x`,
`s.faulted c` and `s.turnedAway` (Safety.lean) are the three ways a command is answered; a conclusion that `exec` answers
one of them says the whole next state, so that everything it does not name is unchanged. -/

open Sys2Proof Sys2Proof.Machine

/-! ### System commands -/

/-- R160: `NOP` answers 0 in every phase and changes nothing. -/
def Obligations.NopAnswersZeroInEveryPhase : Prop :=
  encode .nop = 0x0000#16 ∧ ∀ s : State, exec .nop s = .next (s.completes s.engine 0)

/-- R161: `INIT` writes everything but STRICT and HBUF in every phase, leaves the reset state but for those two, changes
nothing right after reset, and is the only command that leaves phase FAULT. -/
def Obligations.InitOpensFreshCall : Prop :=
  encode .init = 0x1000#16 ∧
  (∀ s : State,
    exec .init s =
      .next (s.completes
        { chk := 1#30, d := ⟨0, 0, 0, 0, 0, 0⟩, phase := .idle, err := 0#4, v := false, hlen := 0#7, dcnt := 0#3,
          strict := s.engine.strict, hbuf := s.engine.hbuf } 0)) ∧
  (∀ s t : State, exec .init s = .next t →
    t.engine = { State.reset.engine with strict := s.engine.strict, hbuf := s.engine.hbuf }) ∧
  exec .init State.reset = .next (State.reset.completes State.reset.engine 0) ∧
  (∀ (i : Instr) (s t : State), s.engine.phase = .fault → exec i s = .next t → t.engine.phase ≠ .fault → i = .init)

/-- R162 (with the layouts of R30 to R33): `RDR n` answers register `n` in every phase and changes nothing. -/
def Obligations.RdrAnswersRegister : Prop :=
  (∀ n : BitVec 2, encode (.rdr n) = BitVec.ofNat 16 (0xC000 + n.toNat)) ∧
  (∀ s : State,
    exec (.rdr 0) s = .next (s.completes s.engine
      (s.engine.phase.number + 8 * (if s.engine.phase = .fault then 1 else 0) + 16 * s.engine.err.toNat +
        256 * s.engine.v.toNat))) ∧
  (∀ s : State, exec (.rdr 1) s = .next (s.completes s.engine s.engine.strict.toNat)) ∧
  (∀ s : State, exec (.rdr 2) s = .next (s.completes s.engine s.engine.chk.toNat)) ∧
  (∀ s : State, exec (.rdr 3) s = .next (s.completes s.engine (s.engine.hlen.toNat + 256 * s.engine.dcnt.toNat)))

/-- R163: `WRC v` writes STRICT, and nothing else, in every phase, and answers 0. -/
def Obligations.WrcWritesStrictAlone : Prop :=
  (∀ v : BitVec 1, encode (.wrc v) = BitVec.ofNat 16 (0xD000 + v.toNat)) ∧
  ∀ (v : BitVec 1) (s : State),
    exec (.wrc v) s = .next (s.completes { s.engine with strict := decide (v.toNat = 1) } 0)

/-! ### The mapper -/

/-- R96: `S2D c` answers the digit of a symbol and changes nothing; any other byte faults `InvalidSymbol`; phase FAULT
turns it away. -/
def Obligations.S2dAnswersDigitOfSymbol : Prop :=
  (∀ c : Byte, encode (.s2d c) = BitVec.ofNat 16 (0x8000 + c.toNat)) ∧
  (∀ (d : Digit) (s : State), s.engine.phase ≠ .fault →
    exec (.s2d (d2s d)) s = .next (s.completes s.engine d.toNat)) ∧
  (∀ (c : Byte) (s : State), s.engine.phase ≠ .fault → (∀ d : Digit, d2s d ≠ c) →
    exec (.s2d c) s = .next (s.faulted 2)) ∧
  (∀ (c : Byte) (s : State), s.engine.phase = .fault → exec (.s2d c) s = .next s.turnedAway)

/-- R97: `D2S d` answers the symbol of a digit and changes nothing; a value above 31 faults `InvalidDigit`; phase FAULT
turns it away. -/
def Obligations.D2sAnswersSymbolOfDigit : Prop :=
  (∀ d : Byte, encode (.d2s d) = BitVec.ofNat 16 (0x9000 + d.toNat)) ∧
  (∀ (d : Byte) (s : State), s.engine.phase ≠ .fault → d.toNat ≤ 31 →
    exec (.d2s d) s = .next (s.completes s.engine (d2s (BitVec.ofNat 5 d.toNat)).toNat)) ∧
  (∀ (d : Byte) (s : State), s.engine.phase ≠ .fault → 31 < d.toNat → exec (.d2s d) s = .next (s.faulted 5)) ∧
  (∀ (d : Byte) (s : State), s.engine.phase = .fault → exec (.d2s d) s = .next s.turnedAway)

/-- R90, R94: the symbol of digit `i` is the byte of character `i` of the alphabet string, and the 32 are all
different. -/
def Obligations.AlphabetIsTheString : Prop :=
  (List.range 32).map (fun i => (d2s (BitVec.ofNat 5 i)).toNat) =
    "qpzry9x8gf2tvdw0s3jn54khce6mua7l".toList.map Char.toNat ∧
  ∀ d e : Digit, d2s d = d2s e → d = e

/-- R93: `s2d` and `d2s` are inverse to each other. -/
def Obligations.SymbolMapsAreInverse : Prop :=
  (∀ d : Digit, s2d (d2s d) = some d) ∧ ∀ (c : Byte) (d : Digit), s2d c = some d → d2s d = c

/-- R98, R95: a byte has a digit exactly when it is a figure other than '1' or a lower-case letter other than 'b', 'i'
and 'o'. -/
def Obligations.SymbolsAreFiguresAndLowerCaseLetters : Prop :=
  ∀ c : Byte, (s2d c).isSome = true ↔
    (48 ≤ c.toNat ∧ c.toNat ≤ 57 ∧ c.toNat ≠ 49) ∨
      (97 ≤ c.toNat ∧ c.toNat ≤ 122 ∧ c.toNat ≠ 98 ∧ c.toNat ≠ 105 ∧ c.toNat ≠ 111)

/-! ### The human-readable part -/

/-- R113: `HRPB b`. The byte accepted, with the whole of HBUF read after; the faults; the phases. -/
def Obligations.HrpbTakesOneByte : Prop :=
  (∀ b : Byte, encode (.hrpb b) = BitVec.ofNat 16 (0x2000 + b.toNat)) ∧
  (∀ (b : Byte) (s : State), (s.engine.phase = .idle ∨ s.engine.phase = .hrp) → s.engine.hbuf.wf = true →
    s.engine.hlen.toNat < 83 → 33 ≤ b.toNat → b.toNat ≤ 126 →
    ∃ m : Memory, m.wf = true ∧
      (∀ k, m.read k =
        if k = s.engine.hlen.toNat then some (BitVec.ofNat 5 (b.toNat % 32)) else s.engine.hbuf.read k) ∧
      exec (.hrpb b) s =
        .next (s.completes
          { s.engine with
            hbuf := m, chk := absorb s.engine.chk (BitVec.ofNat 5 (b.toNat / 32))
            hlen := BitVec.ofNat 7 (s.engine.hlen.toNat + 1), phase := .hrp } 0)) ∧
  (∀ (b : Byte) (s : State), (s.engine.phase = .idle ∨ s.engine.phase = .hrp) →
    (s.engine.hlen.toNat = 83 ∨ b.toNat < 33 ∨ 126 < b.toNat) → exec (.hrpb b) s = .next (s.faulted 1)) ∧
  (∀ (b : Byte) (s : State),
    (s.engine.phase = .data ∨ s.engine.phase = .summed ∨ s.engine.phase = .verified) →
    exec (.hrpb b) s = .next (s.faulted 7)) ∧
  (∀ (b : Byte) (s : State), s.engine.phase = .fault → exec (.hrpb b) s = .next s.turnedAway)

/-- R114: `HRPEND`. The separator digit 0 and the entries 0 to HLEN - 1 of HBUF are absorbed in order; the faults; the
phases. -/
def Obligations.HrpendAbsorbsBufferedParts : Prop :=
  encode .hrpend = 0x3000#16 ∧
  (∀ s : State, (s.engine.phase = .idle ∨ s.engine.phase = .hrp) → 0 < s.engine.hlen.toNat →
    s.engine.hlen.toNat ≤ 83 →
    ∃ lows : List Digit, lows.length = s.engine.hlen.toNat ∧
      (∀ k, k < s.engine.hlen.toNat → s.engine.hbuf.read k = lows[k]?) ∧
      exec .hrpend s =
        .next (s.completes
          { s.engine with chk := (0 :: lows).foldl absorb s.engine.chk, dcnt := 0#3, phase := .data } 0)) ∧
  (∀ s : State, (s.engine.phase = .idle ∨ s.engine.phase = .hrp) → s.engine.hlen = 0#7 →
    exec .hrpend s = .next (s.faulted 1)) ∧
  (∀ s : State, (s.engine.phase = .data ∨ s.engine.phase = .summed ∨ s.engine.phase = .verified) →
    exec .hrpend s = .next (s.faulted 7)) ∧
  (∀ s : State, s.engine.phase = .fault → exec .hrpend s = .next s.turnedAway)

/-- R110: the expansion of an HRP of `n` bytes has `2n + 1` digits: the quotients by 32, a 0, the remainders. -/
def Obligations.HrpExpandListsHighZeroLow : Prop :=
  ∀ h : List Byte, (hrpExpand h).length = 2 * h.length + 1 ∧
    (∀ k, k < h.length → (hrpExpand h)[k]? = h[k]?.map fun b => BitVec.ofNat 5 (b.toNat / 32)) ∧
    (hrpExpand h)[h.length]? = some 0 ∧
    (∀ k, k < h.length → (hrpExpand h)[h.length + 1 + k]? = h[k]?.map fun b => BitVec.ofNat 5 (b.toNat % 32))

/-- R111, R112: from a fresh call, the bytes of `h` and `HRPEND` fault `InvalidHrp` if and only if `validHrp h` fails;
no byte faults as long as the bytes so far are at most 83 and in range; the first byte out of range and the 84th byte,
whichever comes first, fault at once, and an `HRPEND` with no byte before it does. -/
def Obligations.HrpStreamFaultsExactlyWhenInvalid : Prop :=
  (∀ h : List Byte, validHrp h = true ↔
    1 ≤ h.length ∧ h.length ≤ 83 ∧ ∀ b ∈ h, 33 ≤ b.toNat ∧ b.toNat ≤ 126) ∧
  (∀ (h : List Byte) (s : State), s.engine.fresh → s.engine.hbuf.wf = true →
    ∃ t : State, Host.Core.run Sys2Proof.core (h.length + 1) (s.load (hrpProgram h)) = .next t ∧
      (validHrp h = true → t.engine.phase = .data ∧ t.engine.err = 0#4) ∧
      (validHrp h = false → t.engine.phase = .fault ∧ t.engine.err = 1#4)) ∧
  (∀ (h : List Byte) (s : State), s.engine.fresh → s.engine.hbuf.wf = true → h.length ≤ 83 →
    (∀ b ∈ h, 33 ≤ b.toNat ∧ b.toNat ≤ 126) →
    ∃ t : State, Host.Core.run Sys2Proof.core h.length (s.load (h.map Instr.hrpb)) = .next t ∧
      t.engine.phase ≠ .fault) ∧
  (∀ (h : List Byte) (b : Byte) (s : State), s.engine.fresh → s.engine.hbuf.wf = true → h.length ≤ 83 →
    (∀ c ∈ h, 33 ≤ c.toNat ∧ c.toNat ≤ 126) → (h.length = 83 ∨ b.toNat < 33 ∨ 126 < b.toNat) →
    ∃ t : State, Host.Core.run Sys2Proof.core (h.length + 1) (s.load (h.map Instr.hrpb ++ [.hrpb b])) = .next t ∧
      t.engine.phase = .fault ∧ t.engine.err = 1#4) ∧
  (∀ s : State, s.engine.fresh →
    ∃ t : State, Host.Core.run Sys2Proof.core 1 (s.load [.hrpend]) = .next t ∧
      t.engine.phase = .fault ∧ t.engine.err = 1#4)

/-- R115: from a fresh call, a valid HRP leaves CHK the `polymod` of its expansion, and before the `HRPEND` the
`polymod` of the high parts so far. -/
def Obligations.HrpCallLeavesPolymodOfExpansion : Prop :=
  (∀ (h : List Byte) (s : State), s.engine.fresh → s.engine.hbuf.wf = true → validHrp h = true →
    ∃ t : State, Host.Core.run Sys2Proof.core (h.length + 1) (s.load (hrpProgram h)) = .next t ∧
      t.engine.chk = polymod (hrpExpand h) ∧ t.engine.hlen.toNat = h.length ∧ t.engine.dcnt = 0#3 ∧
      t.engine.phase = .data) ∧
  (∀ (h : List Byte) (k : Nat) (s : State), s.engine.fresh → s.engine.hbuf.wf = true → validHrp h = true →
    k ≤ h.length →
    ∃ t : State, Host.Core.run Sys2Proof.core k (s.load ((h.take k).map Instr.hrpb)) = .next t ∧
      t.engine.phase ≠ .fault ∧ t.engine.chk = polymod ((h.take k).map fun b => BitVec.ofNat 5 (b.toNat / 32)))

/-! ### The checksum engine -/

/-- R130: `absorb` on numbers: the shift, the digit, and the constants that the five bits 29:25 select. -/
def Obligations.AbsorbOnNumbers : Prop :=
  ∀ (chk : Acc) (v : Digit),
    (absorb chk v).toNat =
      ((chk.toNat &&& 0x1ffffff) <<< 5 ^^^ v.toNat) ^^^
        (if (chk.toNat / 2 ^ 25).testBit 0 then 0x3b6a57b2 else 0) ^^^
        (if (chk.toNat / 2 ^ 25).testBit 1 then 0x26508e6d else 0) ^^^
        (if (chk.toNat / 2 ^ 25).testBit 2 then 0x1ea119fa else 0) ^^^
        (if (chk.toNat / 2 ^ 25).testBit 3 then 0x3d4233dd else 0) ^^^
        (if (chk.toNat / 2 ^ 25).testBit 4 then 0x2a1462b3 else 0)

/-- R135: `absorb` is linear, six last digits enter without feedback, and what `createChecksum` appends always
verifies. -/
def Obligations.CreatedChecksumVerifies : Prop :=
  (∀ (chk : Acc) (v : Digit), absorb chk v = absorb chk 0 ^^^ v.setWidth 30) ∧
  (∀ x y : Acc, absorb (x ^^^ y) 0 = absorb x 0 ^^^ absorb y 0) ∧
  (∀ (m : List Digit) (c0 c1 c2 c3 c4 c5 : Digit),
    (polymod (m ++ [c0, c1, c2, c3, c4, c5])).toNat =
      (polymod (m ++ [0, 0, 0, 0, 0, 0])).toNat ^^^
        (c0.toNat * 2 ^ 25 + c1.toNat * 2 ^ 20 + c2.toNat * 2 ^ 15 + c3.toNat * 2 ^ 10 + c4.toNat * 2 ^ 5 +
          c5.toNat)) ∧
  (∀ (h : List Byte) (ds : List Digit), polymod (hrpExpand h ++ ds ++ (createChecksum h ds).toList) = 1#30) ∧
  (∀ (h : List Byte) (ds : List Digit), verifyChecksum h (ds ++ (createChecksum h ds).toList) = true)

/-- R136: for a fixed digit `absorb` is a bijection, for a fixed accumulator it is injective in the digit, two sequences
that differ in one digit have different `polymod`, and changing one digit of a message that verifies makes it fail. -/
def Obligations.OneChangedDigitIsDetected : Prop :=
  (∀ v : Digit, Function.Bijective fun chk : Acc => absorb chk v) ∧
  (∀ chk : Acc, Function.Injective fun v : Digit => absorb chk v) ∧
  (∀ (us vs : List Digit) (a b : Digit), a ≠ b → polymod (us ++ [a] ++ vs) ≠ polymod (us ++ [b] ++ vs)) ∧
  (∀ (h : List Byte) (us vs : List Digit) (a b : Digit), a ≠ b →
    verifyChecksum h (us ++ [a] ++ vs) = true → verifyChecksum h (us ++ [b] ++ vs) = false)

/-- R137: `DIG d`. -/
def Obligations.DigAbsorbsOneDigit : Prop :=
  (∀ d : Byte, encode (.dig d) = BitVec.ofNat 16 (0x4000 + d.toNat)) ∧
  (∀ (d : Byte) (s : State), (s.engine.phase = .idle ∨ s.engine.phase = .data) → d.toNat ≤ 31 →
    exec (.dig d) s =
      .next (s.completes
        { s.engine with
          chk := absorb s.engine.chk (BitVec.ofNat 5 d.toNat)
          dcnt := BitVec.ofNat 3 (min (s.engine.dcnt.toNat + 1) 6), phase := .data } 0)) ∧
  (∀ (d : Byte) (s : State), (s.engine.phase = .idle ∨ s.engine.phase = .data) → 31 < d.toNat →
    exec (.dig d) s = .next (s.faulted 5)) ∧
  (∀ (d : Byte) (s : State),
    (s.engine.phase = .hrp ∨ s.engine.phase = .summed ∨ s.engine.phase = .verified) →
    exec (.dig d) s = .next (s.faulted 7)) ∧
  (∀ (d : Byte) (s : State), s.engine.phase = .fault → exec (.dig d) s = .next s.turnedAway)

/-- R138: `SYM c`, and that it has the effect on the state of `DIG s2d(c)`. -/
def Obligations.SymAbsorbsDigitOfSymbol : Prop :=
  (∀ c : Byte, encode (.sym c) = BitVec.ofNat 16 (0x5000 + c.toNat)) ∧
  (∀ (r : Digit) (s : State), (s.engine.phase = .idle ∨ s.engine.phase = .data) →
    exec (.sym (d2s r)) s =
      .next (s.completes
        { s.engine with
          chk := absorb s.engine.chk r, dcnt := BitVec.ofNat 3 (min (s.engine.dcnt.toNat + 1) 6)
          phase := .data } r.toNat)) ∧
  (∀ (c : Byte) (s : State), (s.engine.phase = .idle ∨ s.engine.phase = .data) → (∀ r : Digit, d2s r ≠ c) →
    exec (.sym c) s = .next (s.faulted 2)) ∧
  (∀ (c : Byte) (s : State),
    (s.engine.phase = .hrp ∨ s.engine.phase = .summed ∨ s.engine.phase = .verified) →
    exec (.sym c) s = .next (s.faulted 7)) ∧
  (∀ (c : Byte) (s : State), s.engine.phase = .fault → exec (.sym c) s = .next s.turnedAway) ∧
  (∀ (r : Digit) (s t u : State), exec (.sym (d2s r)) s = .next t → exec (.dig (r.setWidth 8)) s = .next u →
    t.engine = u.engine)

/-- R139: `CSUM`. -/
def Obligations.CsumCreatesChecksum : Prop :=
  encode .csum = 0x6000#16 ∧
  (∀ s : State, (s.engine.phase = .idle ∨ s.engine.phase = .data) →
    ∃ (c t : Acc) (e : Engine), c = [0, 0, 0, 0, 0, 0].foldl absorb s.engine.chk ∧ t = c ^^^ 1#30 ∧
      e = { s.engine with
            chk := c, phase := .summed
            d := ⟨BitVec.ofNat 5 (t.toNat / 2 ^ 25), BitVec.ofNat 5 (t.toNat / 2 ^ 20 % 32),
              BitVec.ofNat 5 (t.toNat / 2 ^ 15 % 32), BitVec.ofNat 5 (t.toNat / 2 ^ 10 % 32),
              BitVec.ofNat 5 (t.toNat / 2 ^ 5 % 32), BitVec.ofNat 5 (t.toNat % 32)⟩ } ∧
      exec .csum s = .next (s.completes e t.toNat)) ∧
  (∀ s : State, (s.engine.phase = .hrp ∨ s.engine.phase = .summed ∨ s.engine.phase = .verified) →
    exec .csum s = .next (s.faulted 7)) ∧
  (∀ s : State, s.engine.phase = .fault → exec .csum s = .next s.turnedAway)

/-- R140: `VRFY`. -/
def Obligations.VrfyJudgesResidue : Prop :=
  encode .vrfy = 0x7000#16 ∧
  (∀ s : State, (s.engine.phase = .idle ∨ s.engine.phase = .data) → 6 ≤ s.engine.dcnt.toNat →
    s.engine.chk = 1#30 → exec .vrfy s = .next (s.completes { s.engine with v := true, phase := .verified } 1)) ∧
  (∀ s : State, (s.engine.phase = .idle ∨ s.engine.phase = .data) → 6 ≤ s.engine.dcnt.toNat →
    s.engine.chk ≠ 1#30 → s.engine.strict = false →
    exec .vrfy s = .next (s.completes { s.engine with v := false, phase := .verified } 0)) ∧
  (∀ s : State, (s.engine.phase = .idle ∨ s.engine.phase = .data) → 6 ≤ s.engine.dcnt.toNat →
    s.engine.chk ≠ 1#30 → s.engine.strict = true → exec .vrfy s = .next (s.faulted 4)) ∧
  (∀ s : State, (s.engine.phase = .idle ∨ s.engine.phase = .data) → s.engine.dcnt.toNat < 6 →
    exec .vrfy s = .next (s.faulted 3)) ∧
  (∀ s : State, (s.engine.phase = .hrp ∨ s.engine.phase = .summed ∨ s.engine.phase = .verified) →
    exec .vrfy s = .next (s.faulted 7)) ∧
  (∀ s : State, s.engine.phase = .fault → exec .vrfy s = .next s.turnedAway)

/-- R141, R75: `RDD i`. That there are terms with index 6 and 7 and that they execute as the illegal words they encode to
is the model's choice (log entry 10, DESIGN CHOICE); the words themselves are illegal by R75. -/
def Obligations.RddAnswersChecksumDigit : Prop :=
  (∀ i : BitVec 3, encode (.rdd i) = BitVec.ofNat 16 (0xA000 + i.toNat)) ∧
  (∀ (i : BitVec 3) (x : Digit) (s : State), s.engine.phase = .summed → s.engine.d.toList[i.toNat]? = some x →
    exec (.rdd i) s = .next (s.completes s.engine x.toNat)) ∧
  (∀ (i : BitVec 3) (s : State), i.toNat ≤ 5 → s.engine.phase ≠ .summed → s.engine.phase ≠ .fault →
    exec (.rdd i) s = .next (s.faulted 7)) ∧
  (∀ (i : BitVec 3) (s : State), 5 < i.toNat → s.engine.phase ≠ .fault → exec (.rdd i) s = .next (s.faulted 6)) ∧
  (∀ (i : BitVec 3) (s : State), s.engine.phase = .fault → exec (.rdd i) s = .next s.turnedAway)

/-- R142, R141, R75: `RDS i`. That there are terms with index 6 and 7 and that they execute as the illegal words they
encode to is the model's choice (log entry 10, DESIGN CHOICE); the words themselves are illegal by R75. -/
def Obligations.RdsAnswersChecksumSymbol : Prop :=
  (∀ i : BitVec 3, encode (.rds i) = BitVec.ofNat 16 (0xB000 + i.toNat)) ∧
  (∀ (i : BitVec 3) (x : Digit) (s : State), s.engine.phase = .summed → s.engine.d.toList[i.toNat]? = some x →
    exec (.rds i) s = .next (s.completes s.engine (d2s x).toNat)) ∧
  (∀ (i : BitVec 3) (s : State), i.toNat ≤ 5 → s.engine.phase ≠ .summed → s.engine.phase ≠ .fault →
    exec (.rds i) s = .next (s.faulted 7)) ∧
  (∀ (i : BitVec 3) (s : State), 5 < i.toNat → s.engine.phase ≠ .fault → exec (.rds i) s = .next (s.faulted 6)) ∧
  (∀ (i : BitVec 3) (s : State), s.engine.phase = .fault → exec (.rds i) s = .next s.turnedAway)

/-- R75, R76, R187 (log entry 9): a word of opcode 14 or 15 faults `IllegalCommand`, and is turned away in phase
FAULT. -/
def Obligations.ReservedOpcodesAreIllegal : Prop :=
  (∀ (r : BitVec 12) (s : State), s.engine.phase ≠ .fault →
    exec (.reservedOp14 r) s = .next (s.faulted 6) ∧ exec (.reservedOp15 r) s = .next (s.faulted 6)) ∧
  (∀ (r : BitVec 12) (s : State), s.engine.phase = .fault →
    exec (.reservedOp14 r) s = .next s.turnedAway ∧ exec (.reservedOp15 r) s = .next s.turnedAway)

/-! ### Encoding -/

/-- R74: `match` and `mask` of every row, with its range condition, select the word's command; a word that no row takes
in, its range condition included, is no command. -/
def Obligations.MaskTableSelectsCommand : Prop :=
  (∀ (w : CmdWord) (i : Instr), decode w = .ok i → i.legal = true →
    ∃ row ∈ [(0x0000#16, 0xFFFF#16, 255), (0x1000#16, 0xFFFF#16, 255), (0x2000#16, 0xFF00#16, 255),
        (0x3000#16, 0xFFFF#16, 255), (0x4000#16, 0xFF00#16, 255), (0x5000#16, 0xFF00#16, 255),
        (0x6000#16, 0xFFFF#16, 255), (0x7000#16, 0xFFFF#16, 255), (0x8000#16, 0xFF00#16, 255),
        (0x9000#16, 0xFF00#16, 255), (0xA000#16, 0xFFF8#16, 5), (0xB000#16, 0xFFF8#16, 5),
        (0xC000#16, 0xFFFC#16, 255), (0xD000#16, 0xFFFE#16, 255)],
      w &&& row.2.1 = row.1 ∧ w.toNat % 256 ≤ row.2.2) ∧
  ∀ w : CmdWord,
    (w &&& 0xFFFF#16 = 0x0000#16 → decode w = .ok .nop) ∧
    (w &&& 0xFFFF#16 = 0x1000#16 → decode w = .ok .init) ∧
    (w &&& 0xFF00#16 = 0x2000#16 → decode w = .ok (.hrpb (BitVec.ofNat 8 w.toNat))) ∧
    (w &&& 0xFFFF#16 = 0x3000#16 → decode w = .ok .hrpend) ∧
    (w &&& 0xFF00#16 = 0x4000#16 → decode w = .ok (.dig (BitVec.ofNat 8 w.toNat))) ∧
    (w &&& 0xFF00#16 = 0x5000#16 → decode w = .ok (.sym (BitVec.ofNat 8 w.toNat))) ∧
    (w &&& 0xFFFF#16 = 0x6000#16 → decode w = .ok .csum) ∧
    (w &&& 0xFFFF#16 = 0x7000#16 → decode w = .ok .vrfy) ∧
    (w &&& 0xFF00#16 = 0x8000#16 → decode w = .ok (.s2d (BitVec.ofNat 8 w.toNat))) ∧
    (w &&& 0xFF00#16 = 0x9000#16 → decode w = .ok (.d2s (BitVec.ofNat 8 w.toNat))) ∧
    (w &&& 0xFFF8#16 = 0xA000#16 → w.toNat % 256 ≤ 5 → decode w = .ok (.rdd (BitVec.ofNat 3 w.toNat))) ∧
    (w &&& 0xFFF8#16 = 0xB000#16 → w.toNat % 256 ≤ 5 → decode w = .ok (.rds (BitVec.ofNat 3 w.toNat))) ∧
    (w &&& 0xFFFC#16 = 0xC000#16 → decode w = .ok (.rdr (BitVec.ofNat 2 w.toNat))) ∧
    (w &&& 0xFFFE#16 = 0xD000#16 → decode w = .ok (.wrc (BitVec.ofNat 1 w.toNat)))

/-- Decoding undoes encoding, for every well-formed term with every operand (R70, R74). -/
def Obligations.DecodeUndoesEncode : Prop :=
  ∀ i : Instr, i.wf = true → decode (encode i) = .ok i

/-- R73: every word is legal, and then it denotes exactly one command with one operand value, or illegal, and then it
denotes none; the illegal words are those of the list of R75. -/
def Obligations.EveryWordIsOneCommandOrIllegal : Prop :=
  ∀ w : CmdWord,
    (legalByR73 w.toNat →
      ∃ i : Instr, decode w = .ok i ∧ i.legal = true ∧ encode i = w ∧
        ∀ j : Instr, j.legal = true → encode j = w → j = i) ∧
    (¬ legalByR73 w.toNat → illegalByR75 w.toNat ∧ ∀ i : Instr, i.legal = true → decode w ≠ .ok i ∧ encode i ≠ w) ∧
    (illegalByR75 w.toNat → ¬ legalByR73 w.toNat)

/-- Words written out from R70 and R74, R78's among them, decode to the commands they stand for. The last word, 0xE000, is
no command but an illegal word (R75, R76); that it decodes to a term of its own, which is no legal command, is the
model's choice (log entry 9, DESIGN CHOICE). -/
def Obligations.WordsOfTheSpecDecode : Prop :=
  decode 0x2062#16 = .ok (.hrpb 0x62) ∧ decode 0x401F#16 = .ok (.dig 31) ∧ decode 0x5071#16 = .ok (.sym 0x71) ∧
  decode 0xC002#16 = .ok (.rdr 2) ∧ decode 0x6000#16 = .ok .csum ∧ decode 0x8065#16 = .ok (.s2d 0x65) ∧
  decode 0xA005#16 = .ok (.rdd 5) ∧ decode 0xE000#16 = .ok (.reservedOp14 0)

/-! ### Sequencing -/

/-- When the host's next input is a word that decodes to `i`, the step is `exec i` at the state whose held response was
transferred and whose input was taken (log entries 1 and 2); a word that decodes to nothing is an illegal command. -/
def Obligations.StepRunsDecodedCommand : Prop :=
  ∀ (s : State) (w : CmdWord) (rest : List HostInput), s.inputs = .command w :: rest →
    (∀ i : Instr, decode w = .ok i → step s = exec i { s.transfer with inputs := rest }) ∧
    (∀ why : DecodeError, decode w = .error why → s.engine.phase ≠ .fault →
      step s = .next (State.faulted { s.transfer with inputs := rest } 6)) ∧
    (∀ why : DecodeError, decode w = .error why → s.engine.phase = .fault →
      step s = .next (State.turnedAway { s.transfer with inputs := rest })) ∧
    s.transfer = { s with rsp := none, outputs := s.outputs ++ s.rsp.toList }

/-- The model's choice (log entry 4, DEDUCED from R57 and R215): with no input the engine waits, its architectural state
unchanged. -/
def Obligations.EngineWaitsWithoutInput : Prop :=
  ∀ s : State, s.inputs = [] →
    step s = .next { s with rsp := none, outputs := s.outputs ++ s.rsp.toList }

/-- R164: the table of which command is legal in which phase, with its two remarks and the row of illegal words. -/
def Obligations.LegalityTableGoverns : Prop :=
  (∀ (i : Instr) (s : State), i.wf = true →
    (legalityTable i s.engine.phase = some .phaseError → exec i s = .next (s.faulted 7)) ∧
    (legalityTable i s.engine.phase = some .refused → exec i s = .next s.turnedAway) ∧
    (legalityTable i s.engine.phase = some .ok → s.Inv →
      ∃ (t : State) (r : RspWord), exec i s = .next t ∧ t.rsp = some r ∧ r ≠ 0x80000007#32)) ∧
  (∀ s : State, s.Inv → s.engine.phase = .idle →
    exec .hrpend s = .next (s.faulted 1) ∧ exec .vrfy s = .next (s.faulted 3)) ∧
  (∀ (w : CmdWord) (s : State), illegalByR75 w.toNat →
    (s.engine.phase ≠ .fault → runWord w s = .next (s.faulted 6)) ∧
    (s.engine.phase = .fault → runWord w s = .next s.turnedAway))

/-- R165: the phase after a command, from every state of the invariant, and after reset. -/
def Obligations.PhaseTransitionsFollowTable : Prop :=
  (∀ (s : State) (rest : List HostInput), s.inputs = .reset :: rest →
    ∃ t : State, step s = .next t ∧ t.engine.phase = .idle) ∧
  ∀ (i : Instr) (s t : State), s.Inv → exec i s = .next t →
    (t.answeredError → t.engine.phase = .fault) ∧
    (s.engine.phase = .fault → i ≠ .init → t.engine.phase = .fault) ∧
    (t.answeredOk → s.engine.phase ≠ .fault ∨ i = .init →
      match i with
      | .init => t.engine.phase = .idle
      | .hrpb _ => (s.engine.phase = .idle ∨ s.engine.phase = .hrp) ∧ t.engine.phase = .hrp
      | .hrpend => s.engine.phase = .hrp ∧ t.engine.phase = .data
      | .dig _ | .sym _ => (s.engine.phase = .idle ∨ s.engine.phase = .data) ∧ t.engine.phase = .data
      | .csum => (s.engine.phase = .idle ∨ s.engine.phase = .data) ∧ t.engine.phase = .summed
      | .vrfy => s.engine.phase = .data ∧ t.engine.phase = .verified
      | .nop | .rdr _ | .wrc _ | .s2d _ | .d2s _ | .rdd _ | .rds _ => t.engine.phase = s.engine.phase
      | .reservedOp14 _ | .reservedOp15 _ => False)

/-- R166: from every state of the invariant, every one of the 65536 words gives one next state and one response, and
touches neither of the host's streams. -/
def Obligations.EveryWordGivesOneResponse : Prop :=
  ∀ (s : State) (w : CmdWord), s.Inv →
    ∃ (t : State) (r : RspWord), runWord w s = .next t ∧ t.rsp = some r ∧ t.inputs = s.inputs ∧ t.outputs = s.outputs

/-- From every state of the invariant a step answers a next state: the engine never stops (R215). -/
def Obligations.StepNeverStops : Prop := ∀ s : State, s.Inv → ∃ t : State, step s = .next t

/-! ### Faults -/

/-- R75: a word of the list of R75 faults `IllegalCommand` outside phase FAULT and is turned away in it; and there is no
undefined encoding. -/
def Obligations.IllegalWordsFault : Prop :=
  (∀ (w : CmdWord) (s : State), illegalByR75 w.toNat → s.engine.phase ≠ .fault →
    runWord w s = .next (s.faulted 6)) ∧
  (∀ (w : CmdWord) (s : State), illegalByR75 w.toNat → s.engine.phase = .fault → runWord w s = .next s.turnedAway) ∧
  (∀ w : CmdWord, ¬ illegalByR75 w.toNat → ∃ i : Instr, decode w = .ok i ∧ i.legal = true)

/-- R186: outside phase FAULT, a command answered with `E = 1` wrote PHASE and ERR alone, its response is
`0x80000000 | code` with a code of 1 to 7, and the `fault` pin is 1. -/
def Obligations.FaultEntryWritesPhaseAndErrAlone : Prop :=
  ∀ (w : CmdWord) (s t : State), s.engine.phase ≠ .fault → runWord w s = .next t → t.answeredError →
    t.engine.faultPin = true ∧ ∃ c : Nat, 1 ≤ c ∧ c ≤ 7 ∧ t = s.faulted c

/-- R185: in phase FAULT no command but `INIT` changes ERR or PHASE; one that would fault again is turned away. -/
def Obligations.FirstFaultIsKept : Prop :=
  ∀ (w : CmdWord) (s t : State), s.engine.phase = .fault → runWord w s = .next t → w ≠ 0x1000#16 →
    t.engine.err = s.engine.err ∧ t.engine.phase = .fault ∧ (t.answeredError → t = s.turnedAway)

/-- R187: in phase FAULT legal `NOP`, `INIT`, `RDR` and `WRC` are executed and answer with `E = 0`; every other word is
turned away. -/
def Obligations.FaultPhaseTurnsAwayAllButFour : Prop :=
  ∀ (w : CmdWord) (s : State), s.engine.phase = .fault →
    ((w = 0x0000#16 ∨ w = 0x1000#16 ∨ (0xC000 ≤ w.toNat ∧ w.toNat ≤ 0xC003) ∨
        (0xD000 ≤ w.toNat ∧ w.toNat ≤ 0xD001)) →
      ∃ (i : Instr) (t : State), decode w = .ok i ∧ runWord w s = exec i s ∧ exec i s = .next t ∧ t.answeredOk) ∧
    (¬ (w = 0x0000#16 ∨ w = 0x1000#16 ∨ (0xC000 ≤ w.toNat ∧ w.toNat ≤ 0xC003) ∨
        (0xD000 ≤ w.toNat ∧ w.toNat ≤ 0xD001)) →
      runWord w s = .next s.turnedAway)

/-- R188: the only ways out of phase FAULT are `INIT`, which opens a new call with `ERR = 0`, and reset. -/
def Obligations.OnlyInitAndResetLeaveFault : Prop :=
  ∀ s t : State, s.engine.phase = .fault → step s = .next t → t.engine.phase ≠ .fault →
    t.engine.fresh ∧ ∃ rest : List HostInput, s.inputs = .reset :: rest ∨ s.inputs = .command 0x1000#16 :: rest

/-- R184: the order in which the fault of a command is chosen, and the three examples. -/
def Obligations.FaultPriorityOrder : Prop :=
  (∀ (w : CmdWord) (s t : State), s.engine.phase = .fault → runWord w s = .next t →
    t = s.turnedAway ∨ t.answeredOk) ∧
  (∀ (w : CmdWord) (s : State), s.engine.phase ≠ .fault → illegalByR75 w.toNat → runWord w s = .next (s.faulted 6)) ∧
  (∀ (w : CmdWord) (i : Instr) (s : State), s.engine.phase ≠ .fault → decode w = .ok i →
    legalityTable i s.engine.phase = some .phaseError → ¬ illegalByR75 w.toNat → runWord w s = .next (s.faulted 7)) ∧
  (∀ (b : Byte) (s : State), (s.engine.phase = .idle ∨ s.engine.phase = .hrp) →
    (s.engine.hlen.toNat = 83 ∨ b.toNat < 33 ∨ 126 < b.toNat) →
    runWord (BitVec.ofNat 16 (0x2000 + b.toNat)) s = .next (s.faulted 1)) ∧
  (∀ s : State, (s.engine.phase = .idle ∨ s.engine.phase = .hrp) → s.engine.hlen = 0#7 →
    runWord 0x3000#16 s = .next (s.faulted 1)) ∧
  (∀ (d : Byte) (s : State), 31 < d.toNat → (s.engine.phase = .idle ∨ s.engine.phase = .data) →
    runWord (BitVec.ofNat 16 (0x4000 + d.toNat)) s = .next (s.faulted 5)) ∧
  (∀ (d : Byte) (s : State), 31 < d.toNat → s.engine.phase ≠ .fault →
    runWord (BitVec.ofNat 16 (0x9000 + d.toNat)) s = .next (s.faulted 5)) ∧
  (∀ (c : Byte) (s : State), (∀ r : Digit, d2s r ≠ c) → (s.engine.phase = .idle ∨ s.engine.phase = .data) →
    runWord (BitVec.ofNat 16 (0x5000 + c.toNat)) s = .next (s.faulted 2)) ∧
  (∀ (c : Byte) (s : State), (∀ r : Digit, d2s r ≠ c) → s.engine.phase ≠ .fault →
    runWord (BitVec.ofNat 16 (0x8000 + c.toNat)) s = .next (s.faulted 2)) ∧
  (∀ s : State, (s.engine.phase = .idle ∨ s.engine.phase = .data) → s.engine.dcnt.toNat < 6 →
    runWord 0x7000#16 s = .next (s.faulted 3)) ∧
  (∀ s : State, (s.engine.phase = .idle ∨ s.engine.phase = .data) → 6 ≤ s.engine.dcnt.toNat →
    s.engine.chk ≠ 1#30 → s.engine.strict = true → runWord 0x7000#16 s = .next (s.faulted 4)) ∧
  (∀ s : State, s.engine.phase = .hrp → runWord 0x4020#16 s = .next (s.faulted 7)) ∧
  (∀ s : State, s.engine.phase = .data → runWord 0xA006#16 s = .next (s.faulted 6)) ∧
  (∀ s : State, s.engine.phase = .data → s.engine.dcnt = 5#3 → runWord 0x7000#16 s = .next (s.faulted 3))

/-! ### The whole machine -/

/-- R20: which command writes which piece of state; a piece of state that a command does not write is unchanged. -/
def Obligations.StateIsWrittenByItsWritersAlone : Prop :=
  ∀ (i : Instr) (s t : State), exec i s = .next t →
    (t.engine.chk ≠ s.engine.chk →
      i = .init ∨ (∃ b, i = .hrpb b) ∨ i = .hrpend ∨ (∃ d, i = .dig d) ∨ (∃ c, i = .sym c) ∨ i = .csum) ∧
    (t.engine.d ≠ s.engine.d → i = .init ∨ i = .csum) ∧
    (t.engine.err ≠ s.engine.err → i = .init ∨ (t.answeredError ∧ t.engine.phase = .fault)) ∧
    (t.engine.v ≠ s.engine.v → i = .init ∨ i = .vrfy) ∧
    (t.engine.hlen ≠ s.engine.hlen → i = .init ∨ ∃ b, i = .hrpb b) ∧
    (t.engine.dcnt ≠ s.engine.dcnt → i = .init ∨ i = .hrpend ∨ (∃ d, i = .dig d) ∨ ∃ c, i = .sym c) ∧
    (t.engine.strict ≠ s.engine.strict → ∃ v, i = .wrc v) ∧
    (t.engine.hbuf ≠ s.engine.hbuf → ∃ b, i = .hrpb b) ∧
    t.inputs = s.inputs ∧ t.outputs = s.outputs

/-- R27: HLEN is cleared by `INIT`, incremented by every `HRPB` that does not fault, and changed by no other command. -/
def Obligations.HlenCountsAcceptedHrpBytes : Prop :=
  State.reset.engine.hlen = 0#7 ∧
  ∀ (i : Instr) (s t : State), s.Inv → exec i s = .next t →
    t.engine.hlen.toNat ≤ 83 ∧
    (i = .init → t.engine.hlen = 0#7) ∧
    ((∃ b, i = .hrpb b) → t.answeredOk → t.engine.hlen.toNat = s.engine.hlen.toNat + 1) ∧
    ((∃ b, i = .hrpb b) → t.answeredError → t.engine.hlen = s.engine.hlen) ∧
    (i ≠ .init → (∀ b, i ≠ .hrpb b) → t.engine.hlen = s.engine.hlen)

/-- R38: the reset values, and what the four registers read right after reset. The content of HBUF at reset is the
model's (log entry 5) and is not stated. -/
def Obligations.ResetValuesAreThoseOfTheSpec : Prop :=
  State.reset.engine.chk = 1#30 ∧ State.reset.engine.d = ⟨0, 0, 0, 0, 0, 0⟩ ∧ State.reset.engine.phase = .idle ∧
  State.reset.engine.err = 0#4 ∧ State.reset.engine.v = false ∧ State.reset.engine.hlen = 0#7 ∧
  State.reset.engine.dcnt = 0#3 ∧ State.reset.engine.strict = true ∧ State.reset.rsp = none ∧
  State.reset.engine.faultPin = false ∧
  exec (.rdr 0) State.reset = .next { State.reset with rsp := some 0x00000000#32 } ∧
  exec (.rdr 1) State.reset = .next { State.reset with rsp := some 0x00000001#32 } ∧
  exec (.rdr 2) State.reset = .next { State.reset with rsp := some 0x00000001#32 } ∧
  exec (.rdr 3) State.reset = .next { State.reset with rsp := some 0x00000000#32 }

/-- The invariant of R37 holds at reset. -/
def Obligations.ResetMeetsInvariant : Prop := State.reset.Inv

/-- R37: every step keeps the invariant. -/
def Obligations.StepKeepsInvariant : Prop := ∀ s t : State, s.Inv → step s = .next t → t.Inv

/-- R29: entries of HBUF that the current call has not written are not observable: two states that differ only in them
give the same response to every word, and differ only in them afterwards. -/
def Obligations.UnwrittenBufferIsUnobservable : Prop :=
  ∀ (w : CmdWord) (s t s' t' : State), s.Inv → t.Inv → s.engine.sameCall t.engine →
    runWord w s = .next s' → runWord w t = .next t' → s'.rsp = t'.rsp ∧ s'.engine.sameCall t'.engine

/-- R15, R146, R163: the responses of a call depend on the words of the call and on STRICT alone: two machines in any
states of the invariant with the same STRICT answer alike from `INIT` on. -/
def Obligations.CallDependsOnItsWordsAndStrictAlone : Prop :=
  ∀ (ws : List CmdWord) (s t : State), s.Inv → t.Inv → s.engine.strict = t.engine.strict →
    s.outputs = t.outputs → s.rsp = t.rsp →
    ∃ s' t' : State, runWords (encode .init :: ws) s = .next s' ∧ runWords (encode .init :: ws) t = .next t' ∧
      s'.outputs = t'.outputs ∧ s'.rsp = t'.rsp ∧ s'.engine.sameCall t'.engine

/-- R143: in a call none of whose commands faults, CHK is the `polymod` of the digits fed to it, in the phases IDLE, HRP,
DATA and VERIFIED. -/
def Obligations.ChkIsPolymodOfDigitsFed : Prop :=
  ∀ (is : List Instr) (s t : State), s.engine.fresh → s.engine.hbuf.wf = true → (∀ i ∈ is, i ≠ .init) →
    (∀ i ∈ is, i.wf = true) →
    Host.Core.run Sys2Proof.core is.length (s.load is) = .next t →
    t.engine.phase ≠ .fault → t.engine.phase ≠ .summed → t.engine.chk = polymod (fedDigits [] is)

/-- R143: the call `INIT; HRP h; DIGS d; CSUM` answers the packed `createChecksum h d` and leaves it in D. -/
def Obligations.ChecksumCallComputesCreateChecksum : Prop :=
  ∀ (h : List Byte) (ds : List Digit) (s : State), s.engine.hbuf.wf = true → validHrp h = true →
    ∃ (t : State) (x : Acc),
      Host.Core.run Sys2Proof.core (h.length + ds.length + 3)
        (s.load ([.init] ++ hrpProgram h ++ digsProgram ds ++ [.csum])) = .next t ∧
      t.rsp = some (BitVec.ofNat 32 x.toNat) ∧ Digits.ofPacked x = createChecksum h ds ∧
      t.engine.d = createChecksum h ds ∧ t.engine.phase = .summed

/-- R143: the call `INIT; HRP h; DIGS e; VRFY` with six digits or more finds `verifyChecksum h e`. -/
def Obligations.VerifyCallComputesVerifyChecksum : Prop :=
  ∀ (h : List Byte) (ds : List Digit) (s : State), s.engine.hbuf.wf = true → validHrp h = true → 6 ≤ ds.length →
    ∃ t : State,
      Host.Core.run Sys2Proof.core (h.length + ds.length + 3)
        (s.load ([.init] ++ hrpProgram h ++ digsProgram ds ++ [.vrfy])) = .next t ∧
      (verifyChecksum h ds = true → t.rsp = some 1#32 ∧ t.engine.v = true ∧ t.engine.phase = .verified) ∧
      (verifyChecksum h ds = false → s.engine.strict = true → t.rsp = some 0x80000004#32 ∧ t.engine.phase = .fault) ∧
      (verifyChecksum h ds = false → s.engine.strict = false →
        t.rsp = some 0#32 ∧ t.engine.v = false ∧ t.engine.phase = .verified)

/-- R143, R167: the raw call `INIT; DIGS v; RDR 2` answers `polymod v`, with HLEN 0. -/
def Obligations.RawCallComputesPolymod : Prop :=
  ∀ (ds : List Digit) (s : State),
    ∃ t : State,
      Host.Core.run Sys2Proof.core (ds.length + 2) (s.load ([.init] ++ digsProgram ds ++ [.rdr 2])) = .next t ∧
      t.rsp = some (BitVec.ofNat 32 (polymod ds).toNat) ∧ t.engine.hlen = 0#7

/-- R135 on the machine (spec/95_test_vectors.md T2): a message with the checksum created for it verifies. -/
def Obligations.CreateThenVerifyAnswersOne : Prop :=
  ∀ (h : List Byte) (ds : List Digit) (s : State), s.engine.hbuf.wf = true → validHrp h = true →
    ∃ t : State,
      Host.Core.run Sys2Proof.core (h.length + ds.length + 9)
        (s.load ([.init] ++ hrpProgram h ++ digsProgram (ds ++ (createChecksum h ds).toList) ++ [.vrfy])) = .next t ∧
      t.rsp = some 1#32 ∧ t.engine.v = true ∧ t.engine.phase = .verified

/-! ### Reset and ports -/

/-- R210 to R212: reset makes the engine's state the reset state, whatever it was, and leaves no response pending: as the
host's next input, and as the pin `rst` at a clock edge. The edge drops a held response (the record of the responses
given is unchanged); as the host's next input reset comes after the transfer of a held response (log entry 2, DEDUCED),
so nothing is dropped there. That `cmd_ready` is 1 right after the edge, also while `rst` stays 1, is the model's choice
(log entry 16, DESIGN CHOICE). What HBUF holds is the model's (log entry 5) and is not stated. -/
def Obligations.ResetDropsEverything : Prop :=
  (∀ (s : State) (rest : List HostInput), s.inputs = .reset :: rest →
    ∃ t : State, step s = .next t ∧ t.engine.fresh ∧ t.engine.strict = true ∧ t.rsp = none ∧ t.inputs = rest) ∧
  (∀ (p : PortState) (i : PinsIn), i.rst = true →
    ∃ q : PortState, clock p i = .next q ∧ q.core.engine.fresh ∧ q.core.engine.strict = true ∧ q.core.rsp = none ∧
      q.core.outputs = p.core.outputs ∧ q.out = ⟨true, none, false⟩)

/-- R191: the `fault` pin is 1 exactly while `PHASE = FAULT`, that is bit F of STATUS. -/
def Obligations.FaultPinIsStatusF : Prop :=
  ∀ p : PortState, (p.out.fault = true ↔ p.core.engine.phase = .fault) ∧
    p.out.fault = p.core.engine.statusReg.getLsbD 3

/-- R217, with choices of the model: that the state, and so the `fault` pin, changes at the accepting edge and not between
it and the response (log entry 11, DESIGN CHOICE within R217), the count-down `wait` of the free value LAT and the edge
to which it counts (log entry 12, DESIGN CHOICE), and that the engine is ready at once after a transfer (log entry 16,
DEDUCED). One command in flight: after an acceptance `cmd_ready` is 0 and the response is pending; until the transfer
`cmd_ready` stays 0 and the state and the response do not change; a response offered and not taken is still offered; the
response is offered when LAT cycles have passed; the transfer makes the engine ready again. -/
def Obligations.OneCommandInFlight : Prop :=
  (∀ (p q : PortState) (i : PinsIn), p.accepts i = true → clock p i = .next q →
    q.out.cmdReady = false ∧ ∃ r : RspWord, q.core.rsp = some r) ∧
  (∀ (p q : PortState) (i : PinsIn), i.rst = false → p.out.cmdReady = false → p.transfers i = false →
    clock p i = .next q → q.out.cmdReady = false ∧ q.core = p.core) ∧
  (∀ (p q : PortState) (i : PinsIn) (r : RspWord), i.rst = false → p.out.rsp = some r → i.rspReady = false →
    clock p i = .next q → q.out.rsp = some r) ∧
  (∀ (p q : PortState) (r : RspWord) (is : List PinsIn), p.core.rsp = some r → (∀ i ∈ is, i.rst = false) →
    is.length = p.wait → clockRun is p = .next q → q.out.rsp = some r ∧ q.core = p.core) ∧
  (∀ (p q : PortState) (i : PinsIn) (r : RspWord), i.rst = false → p.out.rsp = some r → i.rspReady = true →
    clock p i = .next q → q.out.cmdReady = true ∧ q.core.outputs = p.core.outputs ++ [r])

/-- R14, R217, with the model's choice that the state holds the effect of a command from its accepting edge on, that of
the command in flight too (log entry 11, DESIGN CHOICE within R217): the ports carry the transactions and add no
behaviour. Along any clock edges without reset, the engine's state and the responses are those of executing the accepted
words one after another. -/
def Obligations.PortsCarryTheTransactions : Prop :=
  ∀ (is : List PinsIn) (p q : PortState), (∀ i ∈ is, i.rst = false) → clockRun is p = .next q →
    ∃ t : State, runWords (acceptedWords is p) p.core = .next t ∧ t.transfer = q.core.transfer

/-- R218 (log entry 13): a host that drops or changes a word it has offered has no move; a host that keeps its word has
one, from every state of the invariant. -/
def Obligations.HandshakeBreakersHaveNoMove : Prop :=
  (∀ (p : PortState) (i : PinsIn) (w : CmdWord), p.offered = some w → i.rst = false →
    (i.cmdValid = false ∨ i.cmdData ≠ w) → clock p i = .refused .hostBrokeHandshake) ∧
  (∀ (p : PortState) (i : PinsIn), p.core.Inv → p.hostKeepsOffer i = true → ∃ q : PortState, clock p i = .next q) ∧
  (∀ (p q : PortState) (i : PinsIn), i.rst = false → i.cmdValid = true → p.accepts i = false → clock p i = .next q →
    q.offered = some i.cmdData)
end

