-- ==== Sys2Proof/Laws/Decode.lean ====
section
/-! SUPPORT. The fields of a word that the encoder wrote, and a word put together from its fields. -/

namespace Sys2Proof

/-- Putting bits side by side is adding, as numbers. -/
theorem append_toNat {m n : Nat} (x : BitVec m) (y : BitVec n) : (x ++ y).toNat = x.toNat * 2 ^ n + y.toNat := by
  rw [BitVec.toNat_append, ← Nat.shiftLeft_add_eq_or_of_lt y.isLt, Nat.shiftLeft_eq]

/-- A field of a word, as a number. -/
theorem field_toNat {m : Nat} (w : BitVec m) (lo n : Nat) :
    (w.extractLsb' lo n).toNat = w.toNat / 2 ^ lo % 2 ^ n := by
  simp [BitVec.extractLsb'_toNat, Nat.shiftRight_eq_div_pow]

/-- Widening to 30 bits with zeros keeps the number (R9). -/
theorem zext_toNat {n : Nat} (h : n ≤ 30) (x : BitVec n) : (x.setWidth 30).toNat = x.toNat := by
  rw [BitVec.toNat_setWidth]
  exact Nat.mod_eq_of_lt (lt_of_lt_of_le x.isLt (Nat.pow_le_pow_right (by norm_num) h))

/-- A command word as a number: `(op << 12) | imm` (R70). -/
theorem commandWord_toNat (op : BitVec 4) (imm : Byte) :
    (commandWord op imm).toNat = op.toNat * 4096 + imm.toNat := by
  rw [commandWord, append_toNat, append_toNat]; simp

theorem opField_toNat (w : CmdWord) : (opField w).toNat = w.toNat / 4096 := by
  rw [opField, field_toNat]; omega

theorem rsvField_toNat (w : CmdWord) : (rsvField w).toNat = w.toNat / 256 % 16 := by
  rw [rsvField, field_toNat]; norm_num

theorem immField_toNat (w : CmdWord) : (immField w).toNat = w.toNat % 256 := by
  rw [immField, field_toNat]; simp

@[simp] theorem opField_commandWord (op : BitVec 4) (imm : Byte) : opField (commandWord op imm) = op := by
  apply BitVec.eq_of_toNat_eq
  rw [opField_toNat, commandWord_toNat]; omega

@[simp] theorem rsvField_commandWord (op : BitVec 4) (imm : Byte) : rsvField (commandWord op imm) = 0#4 := by
  apply BitVec.eq_of_toNat_eq
  rw [rsvField_toNat, commandWord_toNat]; simp; omega

@[simp] theorem immField_commandWord (op : BitVec 4) (imm : Byte) : immField (commandWord op imm) = imm := by
  apply BitVec.eq_of_toNat_eq
  rw [immField_toNat, commandWord_toNat]; omega

@[simp] theorem opField_reserved (op : BitVec 4) (rest : BitVec 12) : opField (op ++ rest) = op := by
  apply BitVec.eq_of_toNat_eq
  rw [opField_toNat, append_toNat]; omega

@[simp] theorem restField_reserved (op : BitVec 4) (rest : BitVec 12) : restField (op ++ rest) = rest := by
  apply BitVec.eq_of_toNat_eq
  rw [restField, field_toNat, append_toNat]; omega

/-- A word with `rsv` 0 is the command word of its fields (R70). -/
theorem commandWord_fields {w : CmdWord} (h : rsvField w = 0#4) : commandWord (opField w) (immField w) = w := by
  apply BitVec.eq_of_toNat_eq
  have h' : w.toNat / 256 % 16 = 0 := by rw [← rsvField_toNat, h]; rfl
  rw [commandWord_toNat, opField_toNat, immField_toNat]; omega

/-- A word is its opcode followed by the rest. -/
theorem op_rest_fields (w : CmdWord) : opField w ++ restField w = w := by
  apply BitVec.eq_of_toNat_eq
  rw [append_toNat, opField_toNat, restField, field_toNat]; omega

/-- Everything `accept` can do. -/
theorem accept_ok {rsv : BitVec 4} {inRange : Bool} {why : DecodeError} {i j : Instr}
    (h : accept rsv inRange why i = .ok j) : rsv = 0#4 ∧ inRange = true ∧ i = j := by
  unfold accept at h
  split_ifs at h with h1 h2
  · cases h; exact ⟨by simpa using h1, h2, rfl⟩

/-- A word with `rsv` 0 and its operand in range is accepted. -/
theorem accept_of {rsv : BitVec 4} {inRange : Bool} (why : DecodeError) (i : Instr) (h1 : rsv = 0#4)
    (h2 : inRange = true) : accept rsv inRange why i = .ok i := by
  simp [accept, h1, h2]

/-- A word that decodes is the encoding of a well-formed term. -/
theorem decode_sound {w : CmdWord} {i : Instr} (h : decode w = .ok i) : encode i = w ∧ i.wf = true := by
  unfold decode at h
  simp only at h
  have hop : (opField w).toNat < 16 := (opField w).isLt
  have key : ∀ n : Nat, (opField w).toNat = n → opField w = BitVec.ofNat 4 n := by
    intro n hn; apply BitVec.eq_of_toNat_eq; simp [hn]; omega
  split at h
  case h_15 ho => cases h; refine ⟨Eq.trans ?_ (op_rest_fields w), rfl⟩; rw [key _ ho]; rfl
  case h_16 =>
    cases h
    have h15 : (opField w).toNat = 15 := by
      clear key
      generalize (opField w).toNat = n at *
      interval_cases n <;> first | rfl | contradiction
    refine ⟨Eq.trans ?_ (op_rest_fields w), rfl⟩; rw [key _ h15]; rfl
  all_goals
    rename_i ho
    have hk := key _ ho
    obtain ⟨h1, h2, h3⟩ := accept_ok h
    have hw := commandWord_fields h1
    rw [hk] at hw
    subst h3
    first
      | exact ⟨hw, rfl⟩
      | (have h0 : immField w = 0 := by simpa using h2
         rw [h0] at hw; exact ⟨hw, rfl⟩)
      | (generalize hg : immField w = im at *
         refine ⟨Eq.trans ?_ hw, ?_⟩ <;> (clear hw hg h h1; revert im; decide))

end Sys2Proof
end

