-- ==== Sys2Proof/Laws/State.lean ====
section
/-! SUPPORT. What each named update of the state does to each field: one lemma a field, true by rfl. -/

namespace Sys2Proof.Machine

/-! ### `Engine.enterFault` -/

@[simp] theorem Engine.enterFault_chk (e : Engine) (c : FaultCode) : (e.enterFault c).chk = e.chk := rfl
@[simp] theorem Engine.enterFault_d (e : Engine) (c : FaultCode) : (e.enterFault c).d = e.d := rfl
@[simp] theorem Engine.enterFault_phase (e : Engine) (c : FaultCode) : (e.enterFault c).phase = .fault := rfl
@[simp] theorem Engine.enterFault_err (e : Engine) (c : FaultCode) : (e.enterFault c).err = c.code := rfl
@[simp] theorem Engine.enterFault_v (e : Engine) (c : FaultCode) : (e.enterFault c).v = e.v := rfl
@[simp] theorem Engine.enterFault_hlen (e : Engine) (c : FaultCode) : (e.enterFault c).hlen = e.hlen := rfl
@[simp] theorem Engine.enterFault_dcnt (e : Engine) (c : FaultCode) : (e.enterFault c).dcnt = e.dcnt := rfl
@[simp] theorem Engine.enterFault_strict (e : Engine) (c : FaultCode) : (e.enterFault c).strict = e.strict := rfl
@[simp] theorem Engine.enterFault_hbuf (e : Engine) (c : FaultCode) : (e.enterFault c).hbuf = e.hbuf := rfl

/-! ### `Engine.openCall` -/

@[simp] theorem Engine.openCall_chk (e : Engine) : e.openCall.chk = Config.polymodInit := rfl
@[simp] theorem Engine.openCall_d (e : Engine) : e.openCall.d = Digits.zero := rfl
@[simp] theorem Engine.openCall_phase (e : Engine) : e.openCall.phase = .idle := rfl
@[simp] theorem Engine.openCall_err (e : Engine) : e.openCall.err = 0#4 := rfl
@[simp] theorem Engine.openCall_v (e : Engine) : e.openCall.v = false := rfl
@[simp] theorem Engine.openCall_hlen (e : Engine) : e.openCall.hlen = 0#7 := rfl
@[simp] theorem Engine.openCall_dcnt (e : Engine) : e.openCall.dcnt = 0#3 := rfl
@[simp] theorem Engine.openCall_strict (e : Engine) : e.openCall.strict = e.strict := rfl
@[simp] theorem Engine.openCall_hbuf (e : Engine) : e.openCall.hbuf = e.hbuf := rfl

/-! ### `Engine.takeHrpByte` -/

@[simp] theorem Engine.takeHrpByte_chk (e : Engine) (b : Byte) (m : Memory) : (e.takeHrpByte b m).chk = absorb e.chk (highDigit b) := rfl
@[simp] theorem Engine.takeHrpByte_d (e : Engine) (b : Byte) (m : Memory) : (e.takeHrpByte b m).d = e.d := rfl
@[simp] theorem Engine.takeHrpByte_phase (e : Engine) (b : Byte) (m : Memory) : (e.takeHrpByte b m).phase = .hrp := rfl
@[simp] theorem Engine.takeHrpByte_err (e : Engine) (b : Byte) (m : Memory) : (e.takeHrpByte b m).err = e.err := rfl
@[simp] theorem Engine.takeHrpByte_v (e : Engine) (b : Byte) (m : Memory) : (e.takeHrpByte b m).v = e.v := rfl
@[simp] theorem Engine.takeHrpByte_hlen (e : Engine) (b : Byte) (m : Memory) : (e.takeHrpByte b m).hlen = e.hlen + 1#7 := rfl
@[simp] theorem Engine.takeHrpByte_dcnt (e : Engine) (b : Byte) (m : Memory) : (e.takeHrpByte b m).dcnt = e.dcnt := rfl
@[simp] theorem Engine.takeHrpByte_strict (e : Engine) (b : Byte) (m : Memory) : (e.takeHrpByte b m).strict = e.strict := rfl
@[simp] theorem Engine.takeHrpByte_hbuf (e : Engine) (b : Byte) (m : Memory) : (e.takeHrpByte b m).hbuf = m := rfl

/-! ### `Engine.closeHrp` -/

@[simp] theorem Engine.closeHrp_chk (e : Engine) (l : List Digit) : (e.closeHrp l).chk = absorbAll (absorb e.chk 0) l := rfl
@[simp] theorem Engine.closeHrp_d (e : Engine) (l : List Digit) : (e.closeHrp l).d = e.d := rfl
@[simp] theorem Engine.closeHrp_phase (e : Engine) (l : List Digit) : (e.closeHrp l).phase = .data := rfl
@[simp] theorem Engine.closeHrp_err (e : Engine) (l : List Digit) : (e.closeHrp l).err = e.err := rfl
@[simp] theorem Engine.closeHrp_v (e : Engine) (l : List Digit) : (e.closeHrp l).v = e.v := rfl
@[simp] theorem Engine.closeHrp_hlen (e : Engine) (l : List Digit) : (e.closeHrp l).hlen = e.hlen := rfl
@[simp] theorem Engine.closeHrp_dcnt (e : Engine) (l : List Digit) : (e.closeHrp l).dcnt = 0#3 := rfl
@[simp] theorem Engine.closeHrp_strict (e : Engine) (l : List Digit) : (e.closeHrp l).strict = e.strict := rfl
@[simp] theorem Engine.closeHrp_hbuf (e : Engine) (l : List Digit) : (e.closeHrp l).hbuf = e.hbuf := rfl

/-! ### `Engine.takeDigit` -/

@[simp] theorem Engine.takeDigit_chk (e : Engine) (x : Digit) : (e.takeDigit x).chk = absorb e.chk x := rfl
@[simp] theorem Engine.takeDigit_d (e : Engine) (x : Digit) : (e.takeDigit x).d = e.d := rfl
@[simp] theorem Engine.takeDigit_phase (e : Engine) (x : Digit) : (e.takeDigit x).phase = .data := rfl
@[simp] theorem Engine.takeDigit_err (e : Engine) (x : Digit) : (e.takeDigit x).err = e.err := rfl
@[simp] theorem Engine.takeDigit_v (e : Engine) (x : Digit) : (e.takeDigit x).v = e.v := rfl
@[simp] theorem Engine.takeDigit_hlen (e : Engine) (x : Digit) : (e.takeDigit x).hlen = e.hlen := rfl
@[simp] theorem Engine.takeDigit_dcnt (e : Engine) (x : Digit) : (e.takeDigit x).dcnt = countDigit e.dcnt := rfl
@[simp] theorem Engine.takeDigit_strict (e : Engine) (x : Digit) : (e.takeDigit x).strict = e.strict := rfl
@[simp] theorem Engine.takeDigit_hbuf (e : Engine) (x : Digit) : (e.takeDigit x).hbuf = e.hbuf := rfl

/-! ### `Engine.sum` -/

@[simp] theorem Engine.sum_chk (e : Engine) : e.sum.chk = afterZeros e.chk := rfl
@[simp] theorem Engine.sum_d (e : Engine) : e.sum.d = Digits.ofPacked (afterZeros e.chk ^^^ 1) := rfl
@[simp] theorem Engine.sum_phase (e : Engine) : e.sum.phase = .summed := rfl
@[simp] theorem Engine.sum_err (e : Engine) : e.sum.err = e.err := rfl
@[simp] theorem Engine.sum_v (e : Engine) : e.sum.v = e.v := rfl
@[simp] theorem Engine.sum_hlen (e : Engine) : e.sum.hlen = e.hlen := rfl
@[simp] theorem Engine.sum_dcnt (e : Engine) : e.sum.dcnt = e.dcnt := rfl
@[simp] theorem Engine.sum_strict (e : Engine) : e.sum.strict = e.strict := rfl
@[simp] theorem Engine.sum_hbuf (e : Engine) : e.sum.hbuf = e.hbuf := rfl

/-! ### `Engine.judge` -/

@[simp] theorem Engine.judge_chk (e : Engine) (ok : Bool) : (e.judge ok).chk = e.chk := rfl
@[simp] theorem Engine.judge_d (e : Engine) (ok : Bool) : (e.judge ok).d = e.d := rfl
@[simp] theorem Engine.judge_phase (e : Engine) (ok : Bool) : (e.judge ok).phase = .verified := rfl
@[simp] theorem Engine.judge_err (e : Engine) (ok : Bool) : (e.judge ok).err = e.err := rfl
@[simp] theorem Engine.judge_v (e : Engine) (ok : Bool) : (e.judge ok).v = ok := rfl
@[simp] theorem Engine.judge_hlen (e : Engine) (ok : Bool) : (e.judge ok).hlen = e.hlen := rfl
@[simp] theorem Engine.judge_dcnt (e : Engine) (ok : Bool) : (e.judge ok).dcnt = e.dcnt := rfl
@[simp] theorem Engine.judge_strict (e : Engine) (ok : Bool) : (e.judge ok).strict = e.strict := rfl
@[simp] theorem Engine.judge_hbuf (e : Engine) (ok : Bool) : (e.judge ok).hbuf = e.hbuf := rfl

/-! ### `Engine.writeCtrl` -/

@[simp] theorem Engine.writeCtrl_chk (e : Engine) (x : BitVec 1) : (e.writeCtrl x).chk = e.chk := rfl
@[simp] theorem Engine.writeCtrl_d (e : Engine) (x : BitVec 1) : (e.writeCtrl x).d = e.d := rfl
@[simp] theorem Engine.writeCtrl_phase (e : Engine) (x : BitVec 1) : (e.writeCtrl x).phase = e.phase := rfl
@[simp] theorem Engine.writeCtrl_err (e : Engine) (x : BitVec 1) : (e.writeCtrl x).err = e.err := rfl
@[simp] theorem Engine.writeCtrl_v (e : Engine) (x : BitVec 1) : (e.writeCtrl x).v = e.v := rfl
@[simp] theorem Engine.writeCtrl_hlen (e : Engine) (x : BitVec 1) : (e.writeCtrl x).hlen = e.hlen := rfl
@[simp] theorem Engine.writeCtrl_dcnt (e : Engine) (x : BitVec 1) : (e.writeCtrl x).dcnt = e.dcnt := rfl
@[simp] theorem Engine.writeCtrl_strict (e : Engine) (x : BitVec 1) : (e.writeCtrl x).strict = (x == 1#1) := rfl
@[simp] theorem Engine.writeCtrl_hbuf (e : Engine) (x : BitVec 1) : (e.writeCtrl x).hbuf = e.hbuf := rfl

/-! ### `State.transfer`, `State.resetEngine`, `State.loadWords`, `State.withFetchWord` -/

@[simp] theorem State.transfer_engine (s : State) : s.transfer.engine = s.engine := by
  unfold State.transfer; split <;> rfl
@[simp] theorem State.transfer_rsp (s : State) : s.transfer.rsp = none := by
  unfold State.transfer; split <;> simp_all
@[simp] theorem State.transfer_inputs (s : State) : s.transfer.inputs = s.inputs := by
  unfold State.transfer; split <;> rfl
@[simp] theorem State.transfer_outputs (s : State) : s.transfer.outputs = s.outputs ++ s.rsp.toList := by
  unfold State.transfer; split <;> simp_all

/-- A state that holds no response has nothing to transfer. -/
theorem State.transfer_of_rsp_none {s : State} (h : s.rsp = none) : s.transfer = s := by
  simp [State.transfer, h]

/-- Transferring twice transfers once. -/
@[simp] theorem State.transfer_transfer (s : State) : s.transfer.transfer = s.transfer :=
  State.transfer_of_rsp_none (State.transfer_rsp s)

@[simp] theorem State.resetEngine_engine (s : State) : s.resetEngine.engine = Engine.reset := rfl
@[simp] theorem State.resetEngine_rsp (s : State) : s.resetEngine.rsp = none := rfl
@[simp] theorem State.resetEngine_inputs (s : State) : s.resetEngine.inputs = s.inputs := rfl
@[simp] theorem State.resetEngine_outputs (s : State) : s.resetEngine.outputs = s.outputs := rfl

@[simp] theorem State.loadWords_engine (s : State) (ws : List CmdWord) : (s.loadWords ws).engine = s.engine := rfl
@[simp] theorem State.loadWords_rsp (s : State) (ws : List CmdWord) : (s.loadWords ws).rsp = s.rsp := rfl
@[simp] theorem State.loadWords_outputs (s : State) (ws : List CmdWord) : (s.loadWords ws).outputs = s.outputs := rfl
@[simp] theorem State.loadWords_inputs (s : State) (ws : List CmdWord) :
    (s.loadWords ws).inputs = ws.map HostInput.command ++ s.inputs := rfl

@[simp] theorem State.withFetchWord_engine (s : State) (n w : Nat) : (s.withFetchWord n w).engine = s.engine := rfl
@[simp] theorem State.withFetchWord_rsp (s : State) (n w : Nat) : (s.withFetchWord n w).rsp = s.rsp := rfl
@[simp] theorem State.withFetchWord_outputs (s : State) (n w : Nat) : (s.withFetchWord n w).outputs = s.outputs := rfl

end Sys2Proof.Machine
end

