-- ==== Sys2Proof/Laws/Memory.lean ====
section
/-! SUPPORT. HBUF: a read after a write, and the canonical form that every write keeps (spec/20_memory.md R51). -/

namespace Sys2Proof.Machine

/-- Weakening of the least index of the canonical form. -/
theorem Memory.wfFrom_mono {m : Memory} {lo lo' : Nat} (h : Memory.wfFrom lo m = true) (hl : lo' ≤ lo) :
    Memory.wfFrom lo' m = true := by
  cases m with
  | nil => rfl
  | cons p rest =>
    simp only [Memory.wfFrom, Bool.and_eq_true, decide_eq_true_eq] at h ⊢
    exact ⟨⟨⟨by omega, h.1.1.2⟩, h.1.2⟩, h.2⟩

/-- An index below the least one of the list is not in the list. -/
theorem Memory.lookup_of_lt {m : Memory} {lo k : Nat} (h : Memory.wfFrom lo m = true) (hk : k < lo) :
    m.lookup k = hbufUnwritten := by
  induction m generalizing lo with
  | nil => rfl
  | cons p rest ih =>
    simp only [Memory.wfFrom, Bool.and_eq_true, decide_eq_true_eq] at h
    rw [Memory.lookup, if_neg (by omega)]
    exact ih h.2 (by omega)

/-- Reading another index than the one written. -/
theorem Memory.lookup_set_ne {m : Memory} {k j : Nat} (v : Digit) (h : j ≠ k) :
    (m.set k v).lookup j = m.lookup j := by
  induction m with
  | nil =>
    unfold Memory.set; split
    · rfl
    · simp [Memory.lookup, h.symm]
  | cons p rest ih =>
    obtain ⟨a, x⟩ := p
    simp only [Memory.set]
    split_ifs with h1 h2 h3 h4
    · subst h1; simp [Memory.lookup, h.symm]
    · subst h1; simp [Memory.lookup, h.symm]
    · rfl
    · simp [Memory.lookup, h.symm]
    · simp [Memory.lookup, ih]

/-- Reading the index written. -/
theorem Memory.lookup_set_eq {m : Memory} {lo k : Nat} (v : Digit) (h : Memory.wfFrom lo m = true) :
    (m.set k v).lookup k = v := by
  induction m generalizing lo with
  | nil => unfold Memory.set; split <;> simp_all [Memory.lookup]
  | cons p rest ih =>
    obtain ⟨a, x⟩ := p
    have h' := h
    simp only [Memory.wfFrom, Bool.and_eq_true, decide_eq_true_eq] at h
    simp only [Memory.set]
    split_ifs with h1 h2 h3 h4
    · subst h1; rw [h2]; exact Memory.lookup_of_lt h.2 (by omega)
    · simp [Memory.lookup]
    · rw [Memory.lookup, if_neg (by omega), h4]; exact Memory.lookup_of_lt h.2 (by omega)
    · simp [Memory.lookup]
    · simp [Memory.lookup, h1, ih h.2]

/-- A write keeps the canonical form. -/
theorem Memory.wfFrom_set {m : Memory} {lo k : Nat} (v : Digit) (h : Memory.wfFrom lo m = true) (hk : lo ≤ k)
    (hs : k < Config.hbufSize) : Memory.wfFrom lo (m.set k v) = true := by
  induction m generalizing lo with
  | nil => unfold Memory.set; split <;> simp_all [Memory.wfFrom]
  | cons p rest ih =>
    obtain ⟨a, x⟩ := p
    have h' := h
    simp only [Memory.wfFrom, Bool.and_eq_true, decide_eq_true_eq] at h
    simp only [Memory.set]
    split_ifs with h1 h2 h3 h4
    · exact Memory.wfFrom_mono h.2 (by omega)
    · simp_all [Memory.wfFrom]
    · exact h'
    · simp only [Memory.wfFrom, Bool.and_eq_true, decide_eq_true_eq]
      exact ⟨⟨⟨hk, hs⟩, by simpa using h4⟩, ⟨⟨⟨by omega, h.1.1.2⟩, h.1.2⟩, h.2⟩⟩
    · simp only [Memory.wfFrom, Bool.and_eq_true, decide_eq_true_eq]
      exact ⟨⟨⟨h.1.1.1, h.1.1.2⟩, h.1.2⟩, ih h.2 (by omega)⟩

/-- Everything a write can do: it lands below 83, keeps the canonical form, holds the value at its index and leaves every
other index alone. -/
theorem Memory.write_spec {m m' : Memory} {k : Nat} {v : Digit} (hw : m.wf = true) (h : m.write k v = some m') :
    k < Config.hbufSize ∧ m'.wf = true ∧ m'.read k = some v ∧ ∀ j, j ≠ k → m'.read j = m.read j := by
  unfold Memory.write at h
  split at h
  · next hk =>
    cases h
    refine ⟨hk, Memory.wfFrom_set v hw (Nat.zero_le _) hk, ?_, fun j hj => ?_⟩
    · simp [Memory.read, hk, Memory.lookup_set_eq v hw]
    · simp [Memory.read, Memory.lookup_set_ne v hj]
  · cases h

/-- A write to an index that exists lands. -/
theorem Memory.write_of_lt {m : Memory} {k : Nat} (v : Digit) (h : k < Config.hbufSize) :
    m.write k v = some (m.set k v) := by
  simp [Memory.write, h]

/-- Reading the first `n` entries: there are `n`, and each is the entry of its index. -/
theorem Memory.readFirst_spec {m : Memory} {n : Nat} {vs : List Digit} (h : m.readFirst n = some vs) :
    vs.length = n ∧ ∀ k, k < n → m.read k = vs[k]? := by
  induction n generalizing vs with
  | zero => simp only [Memory.readFirst, Option.some.injEq] at h; subst h; simp
  | succ n ih =>
    simp only [Memory.readFirst] at h
    split at h
    · next us u hus hu =>
      cases h
      obtain ⟨hl, hr⟩ := ih hus
      refine ⟨by simp [hl], fun k hk => ?_⟩
      by_cases hkn : k < n
      · rw [hr k hkn, List.getElem?_append_left (by omega)]
      · obtain rfl : k = n := by omega
        rw [hu, List.getElem?_append_right (by omega)]; simp [hl]
    · cases h

/-- The first `n` entries exist if `n` is at most 83. -/
theorem Memory.readFirst_of_le {m : Memory} {n : Nat} (h : n ≤ Config.hbufSize) : ∃ vs, m.readFirst n = some vs := by
  induction n with
  | zero => exact ⟨[], rfl⟩
  | succ n ih =>
    obtain ⟨us, hus⟩ := ih (by omega)
    exact ⟨us ++ [m.lookup n], by simp [Memory.readFirst, hus, Memory.read, show n < Config.hbufSize by omega]⟩

/-- Reading the first entries depends on those entries alone. -/
theorem Memory.readFirst_congr {m m' : Memory} {n : Nat} (h : ∀ k, k < n → m.read k = m'.read k) :
    m.readFirst n = m'.readFirst n := by
  induction n with
  | zero => rfl
  | succ n ih =>
    simp only [Memory.readFirst]
    rw [ih (fun k hk => h k (by omega)), h n (by omega)]

end Sys2Proof.Machine
end

