-- ==== Sys2Proof/Laws/Ops.lean ====
section
/-! SUPPORT. One lemma for each shared operation that says once all it can do. -/

namespace Sys2Proof.Machine

/-! ### Response words (R71) -/

/-- A response with `E = 0` is the number DATA. -/
theorem okWord_eq (x : Acc) : okWord x = BitVec.ofNat 32 x.toNat := by
  apply BitVec.eq_of_toNat_eq
  have := x.isLt
  rw [okWord, append_toNat]; simp; omega

/-- A response with `E = 1` is `0x80000000 | code`. -/
theorem errorWord_eq (c : BitVec 4) : errorWord c = BitVec.ofNat 32 (0x80000000 + c.toNat) := by
  revert c; decide

/-- Bit 31 of a response that completes is 0. -/
@[simp] theorem errorFlag_okWord (x : Acc) : errorFlag (okWord x) = false := by
  rw [errorFlag, okWord, BitVec.getLsbD_append]; simp

/-- Bit 31 of the response of a fault or a refusal is 1. -/
@[simp] theorem errorFlag_errorWord (c : BitVec 4) : errorFlag (errorWord c) = true := by
  revert c; decide

/-- The number of a fault code is 1 to 7 (R181). -/
theorem FaultCode.code_range (c : FaultCode) : 1 ≤ c.code.toNat ∧ c.code.toNat ≤ 7 := by
  cases c <;> decide

/-- A response of 30 bits of DATA has `E = 0`. -/
theorem errorFlag_data {x : Nat} (h : x < 2 ^ 30) : errorFlag (BitVec.ofNat 32 x) = false := by
  have h' := errorFlag_okWord (BitVec.ofNat 30 x)
  rwa [okWord_eq, BitVec.toNat_ofNat, Nat.mod_eq_of_lt h] at h'

/-- The response of a fault or a refusal has `E = 1`. -/
theorem errorFlag_code {x : Nat} (h : x < 16) : errorFlag (BitVec.ofNat 32 (0x80000000 + x)) = true := by
  have h' := errorFlag_errorWord (BitVec.ofNat 4 x)
  rwa [errorWord_eq, BitVec.toNat_ofNat, Nat.mod_eq_of_lt h] at h'

/-- A command that faults is answered with `E = 1`. -/
theorem State.faulted_answeredError (s : State) (c : FaultCode) : (s.faulted c.code.toNat).answeredError :=
  ⟨_, rfl, errorFlag_code (by have := c.code_range; omega)⟩

/-- A command refused is answered with `E = 1`. -/
theorem State.turnedAway_answeredError (s : State) : s.turnedAway.answeredError :=
  ⟨_, rfl, errorFlag_code s.engine.err.isLt⟩

/-- No response has both values of the flag E. -/
theorem State.not_ok_and_error {s : State} (h : s.answeredOk) (h' : s.answeredError) : False := by
  obtain ⟨r, hr, hf⟩ := h
  obtain ⟨r', hr', hf'⟩ := h'
  rw [hr] at hr'; cases hr'; rw [hf] at hf'; cases hf'

/-! ### The outcome of a command -/

@[simp] theorem commit_next (s : State) (e : Engine) (r : RspWord) :
    commit s (.next ⟨e, r⟩) = .next { s with engine := e, rsp := some r } := rfl

/-- A command that completes. -/
@[simp] theorem commit_respond (s : State) (e : Engine) (x : Acc) :
    commit s (respond e x) = .next (s.completes e x.toNat) := by
  simp [respond, State.completes, okWord_eq]

/-- A command that faults (R186). -/
@[simp] theorem commit_raise (s : State) (c : FaultCode) :
    commit s (raise s.engine c) = .next (s.faulted c.code.toNat) := by
  simp [raise, State.faulted, errorWord_eq, Engine.enterFault]

/-- A command refused (R187). -/
@[simp] theorem commit_refuse (s : State) : commit s (refuse s.engine) = .next s.turnedAway := by
  simp [refuse, State.turnedAway, errorWord_eq]

/-- An illegal word outside phase FAULT (R75). -/
theorem commit_illegal {s : State} (h : s.engine.phase ≠ .fault) :
    commit s (illegal s.engine) = .next (s.faulted 6) := by
  rw [illegal, if_neg h, commit_raise]; rfl

/-- An illegal word in phase FAULT (R75, R187). -/
theorem commit_illegal_fault {s : State} (h : s.engine.phase = .fault) :
    commit s (illegal s.engine) = .next s.turnedAway := by
  rw [illegal, if_pos h, commit_refuse]

/-! ### The tests before a command's own rule (R166) -/

/-- A legal command in a phase whose cell is `ok` is executed by its own rule. -/
theorem runCommand_ok {i : Instr} {s : State} {body : Engine → Result} (hl : i.legal = true)
    (hp : phaseOk i s.engine.phase = true) : runCommand i s body = commit s (body s.engine) := by
  unfold runCommand guarded
  by_cases hf : s.engine.phase = .fault
  · rw [hf] at hp; simp [hf, hl, hp]
  · simp [hf, hl, hp]

/-- A command that phase FAULT does not let execute (R187). -/
theorem runCommand_refused {i : Instr} {s : State} {body : Engine → Result} (hf : s.engine.phase = .fault)
    (h : (i.legal && phaseOk i .fault) = false) : runCommand i s body = .next s.turnedAway := by
  simp [runCommand, guarded, hf, h]

/-- A legal command in a phase whose cell is `PhaseError` (R164). -/
theorem runCommand_phaseError {i : Instr} {s : State} {body : Engine → Result} (hf : s.engine.phase ≠ .fault)
    (hl : i.legal = true) (hp : phaseOk i s.engine.phase = false) :
    runCommand i s body = .next (s.faulted 7) := by
  simp [runCommand, guarded, hf, hl, hp, FaultCode.code]

/-- A term that is no legal command (R75). -/
theorem runCommand_illegal {i : Instr} {s : State} {body : Engine → Result} (hf : s.engine.phase ≠ .fault)
    (hl : i.legal = false) : runCommand i s body = .next (s.faulted 6) := by
  simp [runCommand, guarded, hf, hl, FaultCode.code]

/-- Everything `runCommand` can do. -/
theorem runCommand_cases (i : Instr) (s : State) (body : Engine → Result) :
    (s.engine.phase = .fault ∧ (i.legal && phaseOk i .fault) = false ∧ runCommand i s body = .next s.turnedAway) ∨
    (s.engine.phase ≠ .fault ∧ i.legal = false ∧ runCommand i s body = .next (s.faulted 6)) ∨
    (s.engine.phase ≠ .fault ∧ i.legal = true ∧ phaseOk i s.engine.phase = false ∧
      runCommand i s body = .next (s.faulted 7)) ∨
    (i.legal = true ∧ phaseOk i s.engine.phase = true ∧ runCommand i s body = commit s (body s.engine)) := by
  by_cases hf : s.engine.phase = .fault
  · cases h : i.legal && phaseOk i .fault with
    | false => exact .inl ⟨hf, rfl, runCommand_refused hf h⟩
    | true =>
      simp only [Bool.and_eq_true] at h
      have hp : phaseOk i s.engine.phase = true := by rw [hf]; exact h.2
      exact .inr (.inr (.inr ⟨h.1, hp, runCommand_ok h.1 hp⟩))
  · cases hl : i.legal with
    | false => exact .inr (.inl ⟨hf, rfl, runCommand_illegal hf hl⟩)
    | true =>
      cases hp : phaseOk i s.engine.phase with
      | false => exact .inr (.inr (.inl ⟨hf, rfl, rfl, runCommand_phaseError hf hl hp⟩))
      | true => exact .inr (.inr (.inr ⟨rfl, rfl, runCommand_ok hl hp⟩))

/-! ### Absorbing -/

@[simp] theorem absorbAll_nil (c : Acc) : absorbAll c [] = c := rfl
@[simp] theorem absorbAll_cons (c : Acc) (v : Digit) (vs : List Digit) :
    absorbAll c (v :: vs) = absorbAll (absorb c v) vs := rfl
@[simp] theorem absorbAll_append (c : Acc) (us vs : List Digit) :
    absorbAll c (us ++ vs) = absorbAll (absorbAll c us) vs := by
  simp [absorbAll, List.foldl_append]

/-- The low part of an HRP byte is its remainder by 32 (R110). -/
theorem lowDigit_eq (b : Byte) : lowDigit b = BitVec.ofNat 5 (b.toNat % 32) := by
  revert b; decide

/-- The high part of an HRP byte is its quotient by 32 (R110). -/
theorem highDigit_eq (b : Byte) : highDigit b = BitVec.ofNat 5 (b.toNat / 32) := by
  revert b; decide

/-! ### Transactions -/

/-- Executing a word depends on neither of the host's streams, and changes neither. -/
theorem commit_streams (s : State) (r : Result) (is : List HostInput) (os : List RspWord) :
    commit { s with inputs := is, outputs := os } r =
      match commit s r with
      | .next t => .next { t with inputs := is, outputs := os }
      | .fault f => .fault f
      | .refused f => .refused f := by
  cases r <;> rfl

/-- `commit` answers a next state that keeps the host's streams and holds a response. -/
theorem commit_inv {s t : State} {r : Result} (h : commit s r = .next t) :
    ∃ e w, r = .next ⟨e, w⟩ ∧ t = { s with engine := e, rsp := some w } := by
  cases r with
  | next r => cases h; exact ⟨r.engine, r.rsp, rfl, rfl⟩
  | fault f => cases h
  | refused f => cases h

end Sys2Proof.Machine
end

