-- ==== Sys2Proof/Laws/Exec.lean ====
section
/-! SUPPORT. Once, everything `exec` can do: an instruction is turned away, faults, or completes with its effect. -/

namespace Sys2Proof.Machine

/-- The effect of an instruction that completes: from which architectural states, to which one, with which DATA. -/
def Effect : Instr → Engine → Engine → Nat → Prop
  | .nop, e, e', x => e' = e ∧ x = 0
  | .init, e, e', x => e' = e.openCall ∧ x = 0
  | .rdr n, e, e', x => e' = e ∧ x = (e.register n).toNat
  | .wrc v, e, e', x => e' = e.writeCtrl v ∧ x = 0
  | .s2d c, e, e', x => e.phase ≠ .fault ∧ ∃ r, s2d c = some r ∧ e' = e ∧ x = r.toNat
  | .d2s d, e, e', x => e.phase ≠ .fault ∧ validDigit d = true ∧ e' = e ∧ x = (d2s (lowDigit d)).toNat
  | .hrpb b, e, e', x =>
    (e.phase = .idle ∨ e.phase = .hrp) ∧ e.hlen.toNat ≠ 83 ∧ validHrpByte b = true ∧
      ∃ m, e.hbuf.write e.hlen.toNat (lowDigit b) = some m ∧ e' = e.takeHrpByte b m ∧ x = 0
  | .hrpend, e, e', x =>
    (e.phase = .idle ∨ e.phase = .hrp) ∧ e.hlen ≠ 0#7 ∧
      ∃ lows, e.hbuf.readFirst e.hlen.toNat = some lows ∧ e' = e.closeHrp lows ∧ x = 0
  | .dig d, e, e', x =>
    (e.phase = .idle ∨ e.phase = .data) ∧ validDigit d = true ∧ e' = e.takeDigit (lowDigit d) ∧ x = 0
  | .sym c, e, e', x =>
    (e.phase = .idle ∨ e.phase = .data) ∧ ∃ r, s2d c = some r ∧ e' = e.takeDigit r ∧ x = r.toNat
  | .csum, e, e', x =>
    (e.phase = .idle ∨ e.phase = .data) ∧ e' = e.sum ∧ x = (afterZeros e.chk ^^^ 1#30).toNat
  | .vrfy, e, e', x =>
    (e.phase = .idle ∨ e.phase = .data) ∧ 6 ≤ e.dcnt.toNat ∧ (e.chk = 1#30 ∨ e.strict = false) ∧
      e' = e.judge (e.chk == 1#30) ∧ x = if e.chk = 1#30 then 1 else 0
  | .rdd i, e, e', x => digitIndexOk i = true ∧ e.phase = .summed ∧ e' = e ∧ x = (e.d.read i).toNat
  | .rds i, e, e', x => digitIndexOk i = true ∧ e.phase = .summed ∧ e' = e ∧ x = (d2s (e.d.read i)).toNat
  | .reservedOp14 _, _, _, _ => False
  | .reservedOp15 _, _, _, _ => False

/-- The faults of an instruction's own rule, in a legal phase, with their conditions (R182). -/
def OwnFault : Instr → Engine → FaultCode → Prop
  | .hrpb b, e, c => c = .invalidHrp ∧ (e.hlen.toNat = 83 ∨ validHrpByte b = false)
  | .hrpend, e, c => c = .invalidHrp ∧ e.hlen = 0#7
  | .dig d, _, c => c = .invalidDigit ∧ validDigit d = false
  | .d2s d, _, c => c = .invalidDigit ∧ validDigit d = false
  | .sym x, _, c => c = .invalidSymbol ∧ s2d x = none
  | .s2d x, _, c => c = .invalidSymbol ∧ s2d x = none
  | .vrfy, e, c =>
    (c = .tooShort ∧ e.dcnt.toNat < 6) ∨
      (c = .checksumMismatch ∧ 6 ≤ e.dcnt.toNat ∧ e.chk ≠ 1#30 ∧ e.strict = true)
  | .nop, _, _ | .init, _, _ | .rdr _, _, _ | .wrc _, _, _ | .csum, _, _ | .rdd _, _, _ | .rds _, _, _ => False
  | .reservedOp14 _, _, _ | .reservedOp15 _, _, _ => False

/-- The fault an instruction takes, with its condition, in the order of R184. -/
def Faults (i : Instr) (e : Engine) (c : FaultCode) : Prop :=
  (i.legal = false ∧ c = .illegalCommand) ∨
  (i.legal = true ∧ phaseOk i e.phase = false ∧ c = .phaseError) ∨
  (i.legal = true ∧ phaseOk i e.phase = true ∧ OwnFault i e c)

/-- Everything `exec` can do: an instruction is turned away in phase FAULT, or faults, or completes with its effect. -/
theorem exec_inv {i : Instr} {s t : State} (h : exec i s = .next t) :
    (s.engine.phase = .fault ∧ (i.legal && phaseOk i .fault) = false ∧ t = s.turnedAway) ∨
    (s.engine.phase ≠ .fault ∧ ∃ c : FaultCode, Faults i s.engine c ∧ t = s.faulted c.code.toNat) ∨
    (i.legal = true ∧ phaseOk i s.engine.phase = true ∧ ∃ e x, Effect i s.engine e x ∧ t = s.completes e x) := by
  have key : ∀ body : Engine → Result, exec i s = runCommand i s body →
      (i.legal = true → phaseOk i s.engine.phase = true → commit s (body s.engine) = .next t →
        (s.engine.phase ≠ .fault ∧ ∃ c : FaultCode, OwnFault i s.engine c ∧ t = s.faulted c.code.toNat) ∨
        (∃ e x, Effect i s.engine e x ∧ t = s.completes e x)) →
      (s.engine.phase = .fault ∧ (i.legal && phaseOk i .fault) = false ∧ t = s.turnedAway) ∨
      (s.engine.phase ≠ .fault ∧ ∃ c : FaultCode, Faults i s.engine c ∧ t = s.faulted c.code.toNat) ∨
      (i.legal = true ∧ phaseOk i s.engine.phase = true ∧ ∃ e x, Effect i s.engine e x ∧ t = s.completes e x) := by
    intro body he hb
    rw [he] at h
    rcases runCommand_cases i s body with ⟨hf, hg, hr⟩ | ⟨hf, hl, hr⟩ | ⟨hf, hl, hp, hr⟩ | ⟨hl, hp, hr⟩
    · rw [hr] at h; cases h; exact .inl ⟨hf, hg, rfl⟩
    · rw [hr] at h; cases h; exact .inr (.inl ⟨hf, .illegalCommand, .inl ⟨hl, rfl⟩, rfl⟩)
    · rw [hr] at h; cases h; exact .inr (.inl ⟨hf, .phaseError, .inr (.inl ⟨hl, hp, rfl⟩), rfl⟩)
    · rw [hr] at h
      rcases hb hl hp h with ⟨hf, c, hc, ht⟩ | hd
      · exact .inr (.inl ⟨hf, c, .inr (.inr ⟨hl, hp, hc⟩), ht⟩)
      · exact .inr (.inr ⟨hl, hp, hd⟩)
  cases i with
  | nop => exact key _ rfl fun _ _ hc => by simp at hc; exact .inr ⟨_, _, ⟨rfl, rfl⟩, by simp [hc]⟩
  | init => exact key _ rfl fun _ _ hc => by simp at hc; exact .inr ⟨_, _, ⟨rfl, rfl⟩, by simp [hc]⟩
  | rdr n => exact key _ rfl fun _ _ hc => by simp at hc; exact .inr ⟨_, _, ⟨rfl, rfl⟩, by simp [hc]⟩
  | wrc v => exact key _ rfl fun _ _ hc => by simp at hc; exact .inr ⟨_, _, ⟨rfl, rfl⟩, by simp [hc]⟩
  | csum =>
    exact key _ rfl fun _ hp hc => by
      simp only [commit_respond, Host.Outcome.next.injEq] at hc
      simp only [phaseOk, Bool.or_eq_true, beq_iff_eq] at hp
      exact .inr ⟨_, _, ⟨hp, rfl, rfl⟩, hc.symm⟩
  | rdd n =>
    exact key _ rfl fun hl hp hc => by
      simp only [commit_respond, Host.Outcome.next.injEq] at hc
      simp only [phaseOk, beq_iff_eq] at hp
      simp only [Instr.legal, Instr.wf, Instr.reserved, Bool.not_false, Bool.and_true] at hl
      exact .inr ⟨_, _, ⟨hl, hp, rfl, rfl⟩, by rw [← hc, zext_toNat (by norm_num)]⟩
  | rds n =>
    exact key _ rfl fun hl hp hc => by
      simp only [commit_respond, Host.Outcome.next.injEq] at hc
      simp only [phaseOk, beq_iff_eq] at hp
      simp only [Instr.legal, Instr.wf, Instr.reserved, Bool.not_false, Bool.and_true] at hl
      exact .inr ⟨_, _, ⟨hl, hp, rfl, rfl⟩, by rw [← hc, zext_toNat (by norm_num)]⟩
  | s2d c =>
    exact key _ rfl fun _ hp hc => by
      simp only [phaseOk, bne_iff_ne, ne_eq] at hp
      split at hc
      · next hn =>
        simp only [commit_raise, Host.Outcome.next.injEq] at hc
        exact .inl ⟨hp, _, ⟨rfl, hn⟩, hc.symm⟩
      · next r hr =>
        simp only [commit_respond, Host.Outcome.next.injEq] at hc
        exact .inr ⟨_, _, ⟨hp, r, hr, rfl, rfl⟩, by rw [← hc, zext_toNat (by norm_num)]⟩
  | d2s d =>
    exact key _ rfl fun _ hp hc => by
      simp only [phaseOk, bne_iff_ne, ne_eq] at hp
      split at hc
      · next hn =>
        simp only [commit_raise, Host.Outcome.next.injEq] at hc
        exact .inl ⟨hp, _, ⟨rfl, by simpa using hn⟩, hc.symm⟩
      · next hv =>
        simp only [commit_respond, Host.Outcome.next.injEq] at hc
        exact .inr ⟨_, _, ⟨hp, by simpa using hv, rfl, rfl⟩, by rw [← hc, zext_toNat (by norm_num)]⟩
  | hrpb b =>
    exact key _ rfl fun _ hp hc => by
      simp only [phaseOk, Bool.or_eq_true, beq_iff_eq] at hp
      have hf : s.engine.phase ≠ .fault := by rcases hp with h | h <;> simp [h]
      split at hc
      · next hn =>
        simp only [commit_raise, Host.Outcome.next.injEq] at hc
        exact .inl ⟨hf, _, ⟨rfl, by rw [Bool.or_eq_true, decide_eq_true_eq, Bool.not_eq_true'] at hn; exact hn⟩, hc.symm⟩
      · next hv =>
        simp only [Bool.or_eq_true, decide_eq_true_eq, not_or, Bool.not_eq_true', Bool.not_eq_false] at hv
        split at hc
        · cases hc
        · next m hm =>
          simp only [commit_respond, Host.Outcome.next.injEq] at hc
          exact .inr ⟨_, _, ⟨hp, hv.1, hv.2, m, hm, rfl, rfl⟩, hc.symm⟩
  | hrpend =>
    exact key _ rfl fun _ hp hc => by
      simp only [phaseOk, Bool.or_eq_true, beq_iff_eq] at hp
      have hf : s.engine.phase ≠ .fault := by rcases hp with h | h <;> simp [h]
      split at hc
      · next hn =>
        simp only [commit_raise, Host.Outcome.next.injEq] at hc
        exact .inl ⟨hf, _, ⟨rfl, by simpa using hn⟩, hc.symm⟩
      · next hv =>
        split at hc
        · cases hc
        · next lows hm =>
          simp only [commit_respond, Host.Outcome.next.injEq] at hc
          exact .inr ⟨_, _, ⟨hp, hv, lows, hm, rfl, rfl⟩, hc.symm⟩
  | dig d =>
    exact key _ rfl fun _ hp hc => by
      simp only [phaseOk, Bool.or_eq_true, beq_iff_eq] at hp
      have hf : s.engine.phase ≠ .fault := by rcases hp with h | h <;> simp [h]
      split at hc
      · next hn =>
        simp only [commit_raise, Host.Outcome.next.injEq] at hc
        exact .inl ⟨hf, _, ⟨rfl, by simpa using hn⟩, hc.symm⟩
      · next hv =>
        simp only [commit_respond, Host.Outcome.next.injEq] at hc
        exact .inr ⟨_, _, ⟨hp, by simpa using hv, rfl, rfl⟩, hc.symm⟩
  | sym c =>
    exact key _ rfl fun _ hp hc => by
      simp only [phaseOk, Bool.or_eq_true, beq_iff_eq] at hp
      have hf : s.engine.phase ≠ .fault := by rcases hp with h | h <;> simp [h]
      split at hc
      · next hn =>
        simp only [commit_raise, Host.Outcome.next.injEq] at hc
        exact .inl ⟨hf, _, ⟨rfl, hn⟩, hc.symm⟩
      · next r hr =>
        simp only [commit_respond, Host.Outcome.next.injEq] at hc
        exact .inr ⟨_, _, ⟨hp, r, hr, rfl, rfl⟩, by rw [← hc, zext_toNat (by norm_num)]⟩
  | vrfy =>
    exact key _ rfl fun _ hp hc => by
      simp only [phaseOk, Bool.or_eq_true, beq_iff_eq] at hp
      have hf : s.engine.phase ≠ .fault := by rcases hp with h | h <;> simp [h]
      split at hc
      · next hn =>
        simp only [commit_raise, Host.Outcome.next.injEq] at hc
        exact .inl ⟨hf, _, .inl ⟨rfl, by simpa [Config.csumLen] using hn⟩, hc.symm⟩
      · next hd =>
        split at hc
        · next hn =>
          simp only [commit_raise, Host.Outcome.next.injEq] at hc
          simp only [Bool.and_eq_true, bne_iff_ne, ne_eq, Config.polymodOk] at hn
          exact .inl ⟨hf, _, .inr ⟨rfl, by simpa [Config.csumLen] using hd, hn.1, hn.2⟩, hc.symm⟩
        · next hm =>
          simp only [commit_respond, Host.Outcome.next.injEq] at hc
          refine .inr ⟨_, _, ⟨hp, by simpa [Config.csumLen] using hd, ?_, rfl, rfl⟩, ?_⟩
          · by_cases h1 : s.engine.chk = 1#30 <;> simp_all [Config.polymodOk]
          · rw [← hc, verdictValue, zext_toNat (by norm_num)]; simp only [Config.polymodOk]
            by_cases h1 : s.engine.chk = 1#30
            · simp [h1]
            · simp [h1, beq_eq_false_iff_ne.mpr h1]
  | reservedOp14 r => exact key _ rfl fun hl _ _ => by cases hl
  | reservedOp15 r => exact key _ rfl fun hl _ _ => by cases hl

/-- The DATA of an instruction that completes has 30 bits (R71). -/
theorem Effect.data_lt {i : Instr} {e e' : Engine} {x : Nat} (h : Effect i e e' x) : x < 2 ^ 30 := by
  cases i with
  | nop => have := h.2; omega
  | init => have := h.2; omega
  | rdr n => have := h.2; have := (e.register n).isLt; omega
  | wrc v => have := h.2; omega
  | s2d c => obtain ⟨_, r, _, _, rfl⟩ := h; have := r.isLt; omega
  | d2s d => obtain ⟨_, _, _, rfl⟩ := h; have := (d2s (lowDigit d)).isLt; omega
  | hrpb b => obtain ⟨_, _, _, _, _, _, rfl⟩ := h; omega
  | hrpend => obtain ⟨_, _, _, _, _, rfl⟩ := h; omega
  | dig d => obtain ⟨_, _, _, rfl⟩ := h; omega
  | sym c => obtain ⟨_, r, _, _, rfl⟩ := h; have := r.isLt; omega
  | csum => obtain ⟨_, _, rfl⟩ := h; exact (afterZeros e.chk ^^^ 1#30).isLt
  | vrfy => obtain ⟨_, _, _, _, rfl⟩ := h; split <;> omega
  | rdd n => obtain ⟨_, _, _, rfl⟩ := h; have := (e.d.read n).isLt; omega
  | rds n => obtain ⟨_, _, _, rfl⟩ := h; have := (d2s (e.d.read n)).isLt; omega
  | reservedOp14 r => exact h.elim
  | reservedOp15 r => exact h.elim

/-- A command that completes is answered with `E = 0`. -/
theorem Effect.answeredOk {i : Instr} {e e' : Engine} {x : Nat} (h : Effect i e e' x) (s : State) :
    (s.completes e' x).answeredOk :=
  ⟨_, rfl, errorFlag_data h.data_lt⟩

/-- Every arm of `exec` is `runCommand` over a body of its own. -/
theorem exec_eq_runCommand (i : Instr) : ∃ body, ∀ s, exec i s = runCommand i s body := by
  cases i <;> exact ⟨_, fun _ => rfl⟩

/-- With HLEN at most 83 no instruction stops. -/
theorem exec_next {i : Instr} {s : State} (h83 : s.engine.hlen.toNat ≤ 83) : ∃ t, exec i s = .next t := by
  have key : ∀ body : Engine → Result,
      (phaseOk i s.engine.phase = true → ∃ t, commit s (body s.engine) = .next t) →
      ∃ t, runCommand i s body = .next t := by
    intro body hb
    rcases runCommand_cases i s body with ⟨_, _, h⟩ | ⟨_, _, h⟩ | ⟨_, _, _, h⟩ | ⟨_, hp, h⟩
    · exact ⟨_, h⟩
    · exact ⟨_, h⟩
    · exact ⟨_, h⟩
    · rw [h]; exact hb hp
  cases i with
  | hrpb b =>
    refine key _ fun _ => ?_
    split
    · exact ⟨_, commit_raise _ _⟩
    · next hc =>
      have h : s.engine.hlen.toNat ≠ 83 := by intro h; simp [h, Config.hrpMax] at hc
      rw [Memory.write_of_lt _ (show s.engine.hlen.toNat < 83 by omega)]
      exact ⟨_, commit_respond _ _ _⟩
  | hrpend =>
    refine key _ fun _ => ?_
    split
    · exact ⟨_, commit_raise _ _⟩
    · obtain ⟨l, hl⟩ := Memory.readFirst_of_le (m := s.engine.hbuf) (n := s.engine.hlen.toNat) h83
      rw [hl]; exact ⟨_, commit_respond _ _ _⟩
  | vrfy =>
    refine key _ fun _ => ?_
    split
    · exact ⟨_, commit_raise _ _⟩
    · split
      · exact ⟨_, commit_raise _ _⟩
      · exact ⟨_, commit_respond _ _ _⟩
  | dig d | d2s d | sym c | s2d c =>
    refine key _ fun _ => ?_
    split
    · exact ⟨_, commit_raise _ _⟩
    · exact ⟨_, commit_respond _ _ _⟩
  | reservedOp14 r | reservedOp15 r => exact key _ fun hp => by cases hp
  | nop | init | csum | rdd n | rds n | rdr n | wrc v => exact key _ fun _ => ⟨_, commit_respond _ _ _⟩

/-- Executing a word keeps the host's streams and leaves a response held. -/
theorem runWord_streams {w : CmdWord} {s t : State} (h : runWord w s = .next t) :
    t.inputs = s.inputs ∧ t.outputs = s.outputs ∧ ∃ r, t.rsp = some r := by
  unfold runWord at h
  split at h
  · rcases exec_inv h with ⟨_, _, rfl⟩ | ⟨_, c, _, rfl⟩ | ⟨_, _, e, x, _, rfl⟩
    all_goals exact ⟨rfl, rfl, _, rfl⟩
  · obtain ⟨e, w, _, rfl⟩ := commit_inv h
    exact ⟨rfl, rfl, _, rfl⟩

end Sys2Proof.Machine
end

