-- ==== Sys2Proof/Laws/PerInstr.lean ====
section
/-! SUPPORT. Statements about every constructor of `Instr`, one lemma a constructor. -/

/-! ### The opcode nibble of the encoding (spec/30_encoding.md R74) -/

/-- Bits 15:12 of the encoding are the opcode of the row. -/
def Sys2Proof.Laws.OpcodeNibble.Statement (i : Sys2Proof.Instr) : Prop :=
  (Sys2Proof.opField (Sys2Proof.encode i)).toNat =
    match i with
    | .nop => 0
    | .init => 1
    | .hrpb _ => 2
    | .hrpend => 3
    | .dig _ => 4
    | .sym _ => 5
    | .csum => 6
    | .vrfy => 7
    | .s2d _ => 8
    | .d2s _ => 9
    | .rdd _ => 10
    | .rds _ => 11
    | .rdr _ => 12
    | .wrc _ => 13
    | .reservedOp14 _ => 14
    | .reservedOp15 _ => 15

namespace Sys2Proof.Laws.OpcodeNibble

theorem nop : Statement .nop := by simp [Statement, encode]
theorem init : Statement .init := by simp [Statement, encode]
theorem hrpb (b : Byte) : Statement (.hrpb b) := by simp [Statement, encode]
theorem hrpend : Statement .hrpend := by simp [Statement, encode]
theorem dig (d : Byte) : Statement (.dig d) := by simp [Statement, encode]
theorem sym (c : Byte) : Statement (.sym c) := by simp [Statement, encode]
theorem csum : Statement .csum := by simp [Statement, encode]
theorem vrfy : Statement .vrfy := by simp [Statement, encode]
theorem s2d (c : Byte) : Statement (.s2d c) := by simp [Statement, encode]
theorem d2s (d : Byte) : Statement (.d2s d) := by simp [Statement, encode]
theorem rdd (n : BitVec 3) : Statement (.rdd n) := by simp [Statement, encode]
theorem rds (n : BitVec 3) : Statement (.rds n) := by simp [Statement, encode]
theorem rdr (n : BitVec 2) : Statement (.rdr n) := by simp [Statement, encode]
theorem wrc (v : BitVec 1) : Statement (.wrc v) := by simp [Statement, encode]
theorem reservedOp14 (r : BitVec 12) : Statement (.reservedOp14 r) := by simp [Statement, encode]
theorem reservedOp15 (r : BitVec 12) : Statement (.reservedOp15 r) := by simp [Statement, encode]

end Sys2Proof.Laws.OpcodeNibble

/-! ### Legality as a term and as a word (spec/30_encoding.md R73) -/

/-- The predicate `legal(w)` of R73 holds of the encoding exactly when the term is a legal command. -/
def Sys2Proof.Laws.WordLegality.Statement (i : Sys2Proof.Instr) : Prop :=
  Sys2Proof.legalWord (Sys2Proof.encode i) = i.legal

namespace Sys2Proof.Laws.WordLegality

theorem nop : Statement .nop := by
  simp [Statement, encode, legalWord, Instr.legal, Instr.wf, Instr.reserved]
theorem init : Statement .init := by
  simp [Statement, encode, legalWord, Instr.legal, Instr.wf, Instr.reserved]
theorem hrpb (b : Byte) : Statement (.hrpb b) := by
  simp [Statement, encode, legalWord, Instr.legal, Instr.wf, Instr.reserved]
theorem hrpend : Statement .hrpend := by
  simp [Statement, encode, legalWord, Instr.legal, Instr.wf, Instr.reserved]
theorem dig (d : Byte) : Statement (.dig d) := by
  simp [Statement, encode, legalWord, Instr.legal, Instr.wf, Instr.reserved]
theorem sym (c : Byte) : Statement (.sym c) := by
  simp [Statement, encode, legalWord, Instr.legal, Instr.wf, Instr.reserved]
theorem csum : Statement .csum := by
  simp [Statement, encode, legalWord, Instr.legal, Instr.wf, Instr.reserved]
theorem vrfy : Statement .vrfy := by
  simp [Statement, encode, legalWord, Instr.legal, Instr.wf, Instr.reserved]
theorem s2d (c : Byte) : Statement (.s2d c) := by
  simp [Statement, encode, legalWord, Instr.legal, Instr.wf, Instr.reserved]
theorem d2s (d : Byte) : Statement (.d2s d) := by
  simp [Statement, encode, legalWord, Instr.legal, Instr.wf, Instr.reserved]
theorem rdd (n : BitVec 3) : Statement (.rdd n) := by revert n; unfold Statement; decide
theorem rds (n : BitVec 3) : Statement (.rds n) := by revert n; unfold Statement; decide
theorem rdr (n : BitVec 2) : Statement (.rdr n) := by revert n; unfold Statement; decide
theorem wrc (v : BitVec 1) : Statement (.wrc v) := by revert v; unfold Statement; decide
theorem reservedOp14 (r : BitVec 12) : Statement (.reservedOp14 r) := by
  simp [Statement, encode, legalWord, Instr.legal, Instr.wf, Instr.reserved]
theorem reservedOp15 (r : BitVec 12) : Statement (.reservedOp15 r) := by
  simp [Statement, encode, legalWord, Instr.legal, Instr.wf, Instr.reserved]

end Sys2Proof.Laws.WordLegality
end

