-- ==== Sys2Proof/Laws/Step.lean ====
section
/-! SUPPORT. The step by the kind of the host's next input, runs of a loaded program as runs over its words, and the
invariant step packaged once. -/

namespace Sys2Proof.Machine

/-- With no input the engine waits (log entry 4). -/
theorem step_nil {s : State} (h : s.inputs = []) : step s = .next s.transfer := by
  simp [step, transact, h]

/-- With a command word first, the step executes that word. -/
theorem step_command {s : State} {w : CmdWord} {rest : List HostInput} (h : s.inputs = .command w :: rest) :
    step s = runWord w { s.transfer with inputs := rest } := by
  simp [step, transact, h]

/-- With a reset first, the step resets the engine. -/
theorem step_reset {s : State} {rest : List HostInput} (h : s.inputs = .reset :: rest) :
    step s = .next (State.resetEngine { s.transfer with inputs := rest }) := by
  simp [step, transact, h]

/-- Everything a step can do. -/
theorem step_cases {s t : State} (h : step s = .next t) :
    (s.inputs = [] ∧ t = s.transfer) ∨
    (∃ rest, s.inputs = .reset :: rest ∧ t = State.resetEngine { s.transfer with inputs := rest }) ∨
    (∃ w rest, s.inputs = .command w :: rest ∧ runWord w { s.transfer with inputs := rest } = .next t) := by
  match hi : s.inputs with
  | [] => rw [step_nil hi] at h; cases h; exact .inl ⟨rfl, rfl⟩
  | .reset :: rest => rw [step_reset hi] at h; cases h; exact .inr (.inl ⟨rest, rfl, rfl⟩)
  | .command w :: rest => rw [step_command hi] at h; exact .inr (.inr ⟨w, rest, rfl, h⟩)

/-- Everything executing a word can do: an instruction is executed, or the word is illegal. -/
theorem runWord_cases (w : CmdWord) (s : State) :
    (∃ i, decode w = .ok i ∧ runWord w s = exec i s) ∨
    (∃ why, decode w = .error why ∧ runWord w s = commit s (illegal s.engine)) := by
  unfold runWord
  cases h : decode w with
  | ok i => exact .inl ⟨i, rfl, rfl⟩
  | error why => exact .inr ⟨why, rfl, rfl⟩

/-- What is true of the architectural state after every instruction that completes, after a fault and after an illegal
word, is true after every word. -/
theorem runWord_engine_inv {P : Engine → Prop} {w : CmdWord} {s t : State} (h : runWord w s = .next t)
    (h0 : P s.engine) (hfault : s.engine.phase ≠ .fault → ∀ c : FaultCode, P (s.engine.enterFault c))
    (hdone : ∀ i e x, decode w = .ok i → Effect i s.engine e x → P e) : P t.engine := by
  rcases runWord_cases w s with ⟨i, hi, hr⟩ | ⟨why, _, hr⟩
  · rw [hr] at h
    rcases exec_inv h with ⟨_, _, rfl⟩ | ⟨hf, c, _, rfl⟩ | ⟨_, _, e, x, he, rfl⟩
    · exact h0
    · simpa [State.faulted, Engine.enterFault] using hfault hf c
    · exact hdone i e x hi he
  · rw [hr] at h
    by_cases hf : s.engine.phase = .fault
    · rw [commit_illegal_fault hf] at h; cases h; exact h0
    · rw [commit_illegal hf] at h; cases h
      simpa [State.faulted, Engine.enterFault, FaultCode.code] using hfault hf .illegalCommand

/-- The host's coming inputs have no part in executing a body's outcome. -/
theorem commit_inputs (s : State) (r : Result) (is : List HostInput) :
    commit { s with inputs := is } r =
      match commit s r with
      | .next t => .next { t with inputs := is }
      | .fault f => .fault f
      | .refused f => .refused f := by
  cases r <;> rfl

/-- Nor in executing an instruction. -/
theorem exec_inputs (i : Instr) (s : State) (is : List HostInput) :
    exec i { s with inputs := is } =
      match exec i s with
      | .next t => .next { t with inputs := is }
      | .fault f => .fault f
      | .refused f => .refused f := by
  cases i <;> exact commit_inputs s _ is

/-- Nor in executing a word. -/
theorem runWord_inputs (w : CmdWord) (s : State) (is : List HostInput) :
    runWord w { s with inputs := is } =
      match runWord w s with
      | .next t => .next { t with inputs := is }
      | .fault f => .fault f
      | .refused f => .refused f := by
  unfold runWord
  split
  · exact exec_inputs _ s is
  · exact commit_inputs s _ is

/-- One step of a loaded program: its first word, and the rest stays loaded. -/
theorem step_loadWords_cons (w : CmdWord) (ws : List CmdWord) (s : State) :
    step (s.loadWords (w :: ws)) =
      match runWord w s.transfer with
      | .next t => .next (t.loadWords ws)
      | .fault f => .fault f
      | .refused f => .refused f := by
  have hs : step (s.loadWords (w :: ws)) =
      runWord w { s.transfer with inputs := ws.map HostInput.command ++ s.inputs } := by
    rw [step_command (w := w) (rest := ws.map HostInput.command ++ s.inputs) rfl]
    congr 1
    cases s with
    | mk e r i o => cases r <;> rfl
  rw [hs, runWord_inputs]
  cases h : runWord w s.transfer with
  | next t => simp [State.loadWords, (runWord_streams h).1]
  | fault f => rfl
  | refused f => rfl

/-- Running a loaded program to its end is executing its words one after another. -/
theorem run_loadWords (ws : List CmdWord) (s : State) :
    Host.Core.run core ws.length (s.loadWords ws) = runWords ws s := by
  induction ws generalizing s with
  | nil => rfl
  | cons w ws ih =>
    have h := step_loadWords_cons w ws s
    simp only [List.length_cons, Host.Core.run, runWords]
    have hc : Host.Core.step core (s.loadWords (w :: ws)) = _ := h
    rw [hc]
    cases runWord w s.transfer with
    | next t => exact ih t
    | fault f => rfl
    | refused f => rfl

/-- Running a loaded program of instructions. -/
theorem run_load (is : List Instr) (s : State) :
    Host.Core.run core is.length (s.load is) = runWords (is.map encode) s := by
  rw [← run_loadWords, List.length_map]; rfl

/-- Executing the words of two lists one after the other. -/
theorem runWords_append (us vs : List CmdWord) (s : State) :
    runWords (us ++ vs) s =
      match runWords us s with
      | .next t => runWords vs t
      | .fault f => .fault f
      | .refused f => .refused f := by
  induction us generalizing s with
  | nil => rfl
  | cons u us ih =>
    simp only [List.cons_append, runWords]
    cases runWord u s.transfer with
    | next t => exact ih t
    | fault f => rfl
    | refused f => rfl

end Sys2Proof.Machine
end

