-- ==== Sys2Proof/Laws/Ports.lean ====
section
/-! SUPPORT. Once, everything a clock edge can do. -/

namespace Sys2Proof.Machine

/-- When a command word is accepted (R217). -/
theorem PortState.accepts_iff {p : PortState} {i : PinsIn} :
    p.accepts i = true ↔ i.rst = false ∧ i.cmdValid = true ∧ p.core.rsp = none := by
  simp [PortState.accepts, PortState.out, and_assoc]

/-- A reset edge (R210). -/
theorem clock_rst {p : PortState} {i : PinsIn} (h : i.rst = true) :
    clock p i = .next { p with core := p.core.resetEngine, wait := 0, offered := none } := by
  unfold clock; rw [if_pos h]

/-- Everything an edge without reset can do: accept a word and execute it, or pass a cycle with or without a
transfer. -/
theorem clock_cases {p q : PortState} {i : PinsIn} (hr : i.rst = false) (h : clock p i = .next q) :
    (p.accepts i = true ∧ p.core.rsp = none ∧
      ∃ t, runWord i.cmdData p.core = .next t ∧ q = p.afterAccept i.cmdData t) ∨
    (p.accepts i = false ∧
      q = { p with
            core := if p.transfers i then p.core.transfer else p.core
            wait := p.wait - 1
            offered := if i.cmdValid then some i.cmdData else none }) := by
  unfold clock at h
  rw [if_neg (by simp [hr])] at h
  split at h
  · cases h
  · split at h
    · next ha =>
      split at h
      · next t ht => cases h; exact .inl ⟨ha, (PortState.accepts_iff.mp ha).2.2, t, ht, rfl⟩
      · cases h
      · cases h
    · next ha => cases h; exact .inr ⟨by simpa using ha, rfl⟩

end Sys2Proof.Machine
end

