-- ==== Sys2Proof/Machine/Assembler.lean ====
section
/-! DEFINITION. The assembler of one line (spec/30_encoding.md R78, R79): the text of a command or a pseudo-instruction
to the commands it stands for. It is the host's tool; the engine knows nothing of it (log entry 15). -/

namespace Sys2Proof.Machine.Asm

/-- A space or a tab. -/
def isBlank (c : Char) : Bool := c.toNat == 32 || c.toNat == 9

/-- The text without its leading blanks. -/
def skip (cs : List Char) : List Char := cs.dropWhile isBlank

/-- Nothing is left but blanks and a comment, which a `;` opens (R78). -/
def atEnd (cs : List Char) : Bool :=
  match skip cs with
  | [] => true
  | c :: _ => c == ';'

/-- The value of a decimal figure. -/
def decimalFigure (c : Char) : Option Nat :=
  if 48 ≤ c.toNat ∧ c.toNat ≤ 57 then some (c.toNat - 48) else none

/-- The value of a hexadecimal figure. -/
def hexFigure (c : Char) : Option Nat :=
  if 48 ≤ c.toNat ∧ c.toNat ≤ 57 then some (c.toNat - 48)
  else if 65 ≤ c.toNat ∧ c.toNat ≤ 70 then some (c.toNat - 55)
  else if 97 ≤ c.toNat ∧ c.toNat ≤ 102 then some (c.toNat - 87)
  else none

/-- The figures at the front of the text, continuing the value `v`. -/
def figures (base : Nat) (figure : Char → Option Nat) (v : Nat) : List Char → Nat × List Char
  | [] => (v, [])
  | c :: cs =>
    match figure c with
    | some f => figures base figure (v * base + f) cs
    | none => (v, c :: cs)

/-- A printable ASCII character (R78). The range 32 to 126, the space in it, is a DESIGN CHOICE: R78 gives no range,
and the [33,126] that R16 quotes is that of HRP bytes (log entry 15). -/
def printable (c : Char) : Bool := decide (32 ≤ c.toNat) && decide (c.toNat ≤ 126)

/-- An operand: a hexadecimal numeral with `0x`, a decimal numeral, or one printable character between single quotes
(R78), with the rest of the text. -/
def operand (cs : List Char) : Option (Nat × List Char) :=
  match skip cs with
  | '0' :: 'x' :: c :: rest => (hexFigure c).map fun f => figures 16 hexFigure f rest
  | q :: c :: q' :: rest =>
    if q.toNat = 39 ∧ q'.toNat = 39 ∧ printable c then some (c.toNat, rest)
    else (decimalFigure q).map fun f => figures 10 decimalFigure f (c :: q' :: rest)
  | c :: rest => (decimalFigure c).map fun f => figures 10 decimalFigure f rest
  | [] => none

/-- The one operand of a line, at most `max` (R73, R78: an operand that makes the word illegal is refused). -/
def onlyOperand (max : Nat) (cs : List Char) : Option Nat :=
  match operand cs with
  | some (v, rest) => if atEnd rest && decide (v ≤ max) then some v else none
  | none => none

/-- The characters up to the closing double quote, and the rest. -/
def quoted : List Char → Option (List Char × List Char)
  | [] => none
  | c :: cs =>
    if c.toNat = 34 then some ([], cs)
    else if printable c then (quoted cs).map fun r => (c :: r.1, r.2)
    else none

/-- The one string operand of a line, as bytes (R79); the empty string is one, for `SYMS` by the model's choice (log
entry 15). -/
def onlyString (cs : List Char) : Option (List Byte) :=
  match skip cs with
  | q :: rest =>
    if q.toNat = 34 then
      match quoted rest with
      | some (s, rest') => if atEnd rest' then some (s.map fun c => BitVec.ofNat 8 c.toNat) else none
      | none => none
    else none
  | [] => none

/-- One operand or more, separated by commas, at most as many as `fuel`. That there must be one, so that a `DIGS` with no
operand is refused, is a DESIGN CHOICE: R79 is silent on n = 0 for `DIGS` (log entry 15). -/
def operandList : Nat → List Char → Option (List Nat)
  | 0, _ => none
  | fuel + 1, cs =>
    match operand cs with
    | none => none
    | some (v, rest) =>
      if atEnd rest then some [v]
      else
        match skip rest with
        | ',' :: rest' => (operandList fuel rest').map (v :: ·)
        | _ => none

/-- A line with the mnemonic `name` and no operand. -/
def alone (rest : List Char) (is : List Instr) : Option (List Instr) := if atEnd rest then some is else none

/-- The commands of a mnemonic and the text after it (R74, R78, R79). -/
def expand (name : String) (rest : List Char) : Option (List Instr) :=
  match name with
  | "NOP" => alone rest [.nop]
  | "INIT" => alone rest [.init]
  | "HRPEND" => alone rest [.hrpend]
  | "CSUM" => alone rest [.csum]
  | "VRFY" => alone rest [.vrfy]
  | "HRPB" => (onlyOperand 255 rest).map fun v => [.hrpb (BitVec.ofNat 8 v)]
  | "DIG" => (onlyOperand 255 rest).map fun v => [.dig (BitVec.ofNat 8 v)]
  | "SYM" => (onlyOperand 255 rest).map fun v => [.sym (BitVec.ofNat 8 v)]
  | "S2D" => (onlyOperand 255 rest).map fun v => [.s2d (BitVec.ofNat 8 v)]
  | "D2S" => (onlyOperand 255 rest).map fun v => [.d2s (BitVec.ofNat 8 v)]
  | "RDD" => (onlyOperand 5 rest).map fun v => [.rdd (BitVec.ofNat 3 v)]
  | "RDS" => (onlyOperand 5 rest).map fun v => [.rds (BitVec.ofNat 3 v)]
  | "RDR" => (onlyOperand 3 rest).map fun v => [.rdr (BitVec.ofNat 2 v)]
  | "WRC" => (onlyOperand 1 rest).map fun v => [.wrc (BitVec.ofNat 1 v)]
  | "HRP" => (onlyString rest).map hrpProgram
  | "SYMS" => (onlyString rest).map symsProgram
  | "DIGS" =>
    (operandList (rest.length + 1) rest).bind fun vs =>
      if vs.all fun v => decide (v ≤ 255) then some (vs.map fun v => .dig (BitVec.ofNat 8 v)) else none
  | "RDSUM" => alone rest rdsumProgram
  | "RDST" => alone rest [.rdr 0]
  | "RDCTL" => alone rest [.rdr 1]
  | "RDCHK" => alone rest [.rdr 2]
  | "RDLEN" => alone rest [.rdr 3]
  | "STRICT" => alone rest [.wrc 1]
  | "LAX" => alone rest [.wrc 0]
  | _ => none

/-- A character of a mnemonic: a capital letter or a figure (R78). -/
def inName (c : Char) : Bool := (decide (65 ≤ c.toNat) && decide (c.toNat ≤ 90)) || (decimalFigure c).isSome

/-- One line of assembler text (R78, R79): the commands it stands for, none for a blank line or a comment; no result
where the assembler refuses the line. -/
def line (text : List Char) : Option (List Instr) :=
  if atEnd text then some []
  else expand (String.ofList ((skip text).takeWhile inName)) ((skip text).dropWhile inName)

end Sys2Proof.Machine.Asm
end

