-- ==== Sys2Proof/Tests/Slice0.lean ====
section
/-! SUPPORT. Tests. Expected values are those of spec/95_test_vectors.md (the vector is named), of a rule's worked
example, or of a table of the spec. After them, for each statement with hypotheses, a witness that meets them. -/

namespace Sys2Proof.Tests

open Sys2Proof Sys2Proof.Machine

/-! ### Helpers -/

/-- The state after reset with another architectural state. -/
def holding (e : Engine) : State := { State.reset with engine := e }

/-- After reset, in the phase `p`. -/
def phased (p : Phase) : State := holding { Engine.reset with phase := p }

/-- After `HRPB 'a'`. -/
def hrpCall : State := holding { Engine.reset with chk := 0x23#30, phase := .hrp, hlen := 1#7, hbuf := [(0, 1)] }

/-- After 83 times `HRPB 'a'` (the first part of vector H17). -/
def fullHrp : State :=
  holding { Engine.reset with
    chk := 0x107391E9#30, phase := .hrp, hlen := 83#7, hbuf := (List.range 83).map fun k => (k, 1) }

/-- After `HRP "a"` (vector H14). -/
def dataCall : State :=
  holding { Engine.reset with chk := 0x8C01#30, phase := .data, hlen := 1#7, hbuf := [(0, 1)] }

/-- After `HRP "a"`, `CSUM` (vector K2). -/
def summedCall : State :=
  holding { Engine.reset with
    chk := 0x15CCFE9E#30, d := ⟨10, 28, 25, 31, 20, 31⟩, phase := .summed, hlen := 1#7, hbuf := [(0, 1)] }

/-- Before the `VRFY` of vector V1. -/
def goodCall : State :=
  holding { Engine.reset with chk := 1#30, phase := .data, hlen := 1#7, dcnt := 6#3, hbuf := [(0, 1)] }

/-- Before the `VRFY` of vector V4. -/
def badCall : State :=
  holding { Engine.reset with
    chk := 0x1D777DB7#30, phase := .data, hlen := 2#7, dcnt := 6#3, hbuf := [(0, 2), (1, 3)] }

/-- The same with `STRICT = 0` (vector V5). -/
def laxCall : State := holding { badCall.engine with strict := false }

/-- After the `VRFY` of vector V1. -/
def verifiedCall : State := holding { goodCall.engine with v := true, phase := .verified }

/-- After the `VRFY` of vector V4. -/
def faultCall : State := holding { badCall.engine with phase := .fault, err := 4#4 }

/-- The state after an instruction. -/
def after (i : Instr) (s : State) : Option State :=
  match exec i s with
  | .next t => some t
  | .fault _ => none
  | .refused _ => none

/-- The response, CHK, PHASE and ERR after an instruction. -/
def seen (i : Instr) (s : State) : Option (Option RspWord × Acc × Phase × BitVec 4) :=
  (after i s).map fun t => (t.rsp, t.engine.chk, t.engine.phase, t.engine.err)

/-- The response to an instruction. -/
def answer (i : Instr) (s : State) : Option RspWord := (after i s).bind fun t => t.rsp

/-- A word decodes to `i`. -/
def denotes (w : CmdWord) (i : Instr) : Bool :=
  match decode w with
  | .ok j => decide (j = i)
  | .error _ => false

/-- A word is refused by the decoder, for this reason. -/
def rejected (w : CmdWord) (why : DecodeError) : Bool :=
  match decode w with
  | .ok _ => false
  | .error y => decide (y = why)

/-! ### WellFormed -/

theorem test_wf_refuses_rdd_6 : (Instr.rdd 6).wf = false := by decide
theorem test_wf_refuses_rdd_7 : (Instr.rdd 7).wf = false := by decide
theorem test_wf_refuses_rds_6 : (Instr.rds 6).wf = false := by decide
theorem test_wf_refuses_rds_7 : (Instr.rds 7).wf = false := by decide
theorem test_wf_accepts_index_5 : (Instr.rdd 5).wf = true ∧ (Instr.rds 5).wf = true := by decide
theorem test_reserved_is_not_legal : (Instr.reservedOp14 0).legal = false ∧ (Instr.reservedOp15 0).legal = false := by
  decide

/-! ### Decoding: words written out from R70 and R74 -/

theorem test_decode_nop : denotes 0b0000000000000000#16 .nop = true := by decide
theorem test_decode_init : denotes 0b0001000000000000#16 .init = true := by decide
theorem test_decode_hrpb : denotes 0b0010000001100010#16 (.hrpb 0x62) = true := by decide
theorem test_decode_hrpend : denotes 0b0011000000000000#16 .hrpend = true := by decide
theorem test_decode_dig : denotes 0b0100000011111111#16 (.dig 255) = true := by decide
theorem test_decode_sym : denotes 0b0101000001110001#16 (.sym 0x71) = true := by decide
theorem test_decode_csum : denotes 0b0110000000000000#16 .csum = true := by decide
theorem test_decode_vrfy : denotes 0b0111000000000000#16 .vrfy = true := by decide
theorem test_decode_s2d : denotes 0b1000000001100101#16 (.s2d 0x65) = true := by decide
theorem test_decode_d2s : denotes 0b1001000000001010#16 (.d2s 10) = true := by decide
theorem test_decode_rdd : denotes 0b1010000000000101#16 (.rdd 5) = true := by decide
theorem test_decode_rds : denotes 0b1011000000000011#16 (.rds 3) = true := by decide
theorem test_decode_rdr : denotes 0b1100000000000010#16 (.rdr 2) = true := by decide
theorem test_decode_wrc : denotes 0b1101000000000001#16 (.wrc 1) = true := by decide
theorem test_decode_reserved14 : denotes 0b1110000000000001#16 (.reservedOp14 1) = true := by decide
theorem test_decode_reserved15 : denotes 0b1111111111111111#16 (.reservedOp15 0xFFF) = true := by decide

/-- R75: each kind of illegal word, at the edge of its range. -/
theorem test_decode_rejects :
    rejected 0x0001#16 .operandNotZero = true ∧ rejected 0x1080#16 .operandNotZero = true ∧
    rejected 0x3001#16 .operandNotZero = true ∧ rejected 0x6001#16 .operandNotZero = true ∧
    rejected 0x7001#16 .operandNotZero = true ∧ rejected 0x2161#16 .reservedBitsSet = true ∧
    rejected 0xDF01#16 .reservedBitsSet = true ∧ rejected 0xA006#16 .digitIndexOutOfRange = true ∧
    rejected 0xB008#16 .digitIndexOutOfRange = true ∧ rejected 0xC004#16 .registerOutOfRange = true ∧
    rejected 0xD002#16 .controlValueOutOfRange = true := by decide

/-- `decodeTableWord` numbers bits as the table does. -/
theorem test_decodeTableWord : decodeTableWord 16 0x401F = some (.dig 31) ∧ decodeTableWord 16 0xA006 = none := by
  decide

/-! ### The assembler: the examples of R78 and rows of R79 -/

theorem test_asm_hrpb : Asm.line "HRPB 'b'".toList = some [.hrpb 0x62] := by decide
theorem test_asm_dig : Asm.line "DIG 31 ; a comment".toList = some [.dig 31] := by decide
theorem test_asm_hex : Asm.line "DIG 0x20".toList = some [.dig 32] := by decide
theorem test_asm_refuses_illegal : Asm.line "RDD 6".toList = none := by decide
theorem test_asm_hrp : Asm.line "HRP \"bc\"".toList = some [.hrpb 0x62, .hrpb 0x63, .hrpend] := by decide
theorem test_asm_digs : Asm.line "DIGS 0, 14, 31".toList = some [.dig 0, .dig 14, .dig 31] := by decide
theorem test_asm_lax : Asm.line "LAX".toList = some [.wrc 0] := by decide

/-! ### The polynomial step: vectors A2, A9 and A10 -/

theorem test_absorb_A2 : absorb 0x00000001#30 31#5 = 0x0000003F#30 := by decide
theorem test_absorb_A9 : absorb 0x3E000000#30 0#5 = 0x14CD914B#30 := by decide
theorem test_absorb_A10 : absorb 0x3FFFFFFF#30 31#5 = 0x2B326EB4#30 := by decide
theorem test_polymod_M9 : polymod (hrpExpand [0x62#8, 0x63#8]) = 0x02318043#30 := by decide

/-! ### Commands -/

/-- R160: `NOP` in phase FAULT answers 0 and does not clear the fault. -/
theorem test_nop_in_fault : seen .nop faultCall = some (some 0, 0x1D777DB7, .fault, 4) := by decide

/-- R161: `INIT` in phase FAULT. -/
theorem test_init_in_fault : seen .init faultCall = some (some 0, 1, .idle, 0) := by decide
/-- R163: `INIT` keeps STRICT. -/
theorem test_init_keeps_strict : (after .init laxCall).map (fun t => t.engine.strict) = some false := by decide

/-- R162: STATUS in phase FAULT, `0x0000004D` for `ChecksumMismatch`. -/
theorem test_rdr_status : answer (.rdr 0) faultCall = some 0x0000004D#32 := by decide
/-- R33: LEN with HLEN 1 and DCNT 6. -/
theorem test_rdr_len : answer (.rdr 3) goodCall = some 0x00000601#32 := by decide

/-- R163: `WRC 0`. -/
theorem test_wrc : (after (.wrc 0) badCall).map (fun t => (t.rsp, t.engine.strict)) = some (some 0, false) := by decide

/-- R113: `HRPB 'c'` after `HRPB 'b'`. -/
theorem test_hrpb_second :
    (after (.hrpb 0x63) (holding { hrpCall.engine with hbuf := [(0, 2)] })).map
      (fun t => (t.rsp, t.engine.chk, t.engine.hlen, t.engine.hbuf)) = some (some 0, 0x463, 2, [(0, 2), (1, 3)]) := by
  decide
/-- Vector H8: the 84th `HRPB`. -/
theorem test_hrpb_84th : seen (.hrpb 0x61) fullHrp = some (some 0x80000001, 0x107391E9, .fault, 1) := by decide

set_option maxRecDepth 4000 in
/-- Vector H7: `HRPEND` after 83 bytes. -/
theorem test_hrpend_full : seen .hrpend fullHrp = some (some 0, 0x1ADC7AE4, .data, 0) := by decide
/-- Vector H10: the empty HRP. -/
theorem test_hrpend_empty : seen .hrpend State.reset = some (some 0x80000001, 1, .fault, 1) := by decide

/-- Vector G13. -/
theorem test_dig : seen (.dig 10) dataCall = some (some 0, 0x0011802A, .data, 0) := by decide
/-- Vector G11: the phase is tested before the operand. -/
theorem test_dig_priority : seen (.dig 32) hrpCall = some (some 0x80000007, 0x23, .fault, 7) := by decide

/-- Vector G12. -/
theorem test_sym : seen (.sym 0x32) dataCall = some (some 0x0A, 0x0011802A, .data, 0) := by decide
/-- Vector G9: no case is folded. -/
theorem test_sym_upper_case : seen (.sym 0x51) State.reset = some (some 0x80000002, 1, .fault, 2) := by decide

/-- Vector K2. -/
theorem test_csum :
    (after .csum dataCall).map (fun t => (t.rsp, t.engine.chk, t.engine.d)) =
      some (some 0x15CCFE9F, 0x15CCFE9E, ⟨10, 28, 25, 31, 20, 31⟩) := by decide

/-- Vector V4: STRICT. -/
theorem test_vrfy_strict : seen .vrfy badCall = some (some 0x80000004, 0x1D777DB7, .fault, 4) := by decide
/-- Vector V5: advisory. -/
theorem test_vrfy_lax : seen .vrfy laxCall = some (some 0, 0x1D777DB7, .verified, 0) := by decide

/-- `S2D 'l'` and `S2D 'b'` (spec/95_test_vectors.md 2.2). -/
theorem test_s2d :
    answer (.s2d 0x6C) State.reset = some 0x1F#32 ∧ answer (.s2d 0x62) State.reset = some 0x80000002#32 := by decide
/-- `D2S 10` and `D2S 33` (R97, not `'p'`). -/
theorem test_d2s : answer (.d2s 10) hrpCall = some 0x32#32 ∧ answer (.d2s 33) hrpCall = some 0x80000005#32 := by decide

/-- R141: `RDD 0` and `RDD 5` after K2. -/
theorem test_rdd : answer (.rdd 0) summedCall = some 0x0A#32 ∧ answer (.rdd 5) summedCall = some 0x1F#32 := by decide
/-- R184: `RDD 6` in phase DATA is an illegal command. -/
theorem test_rdd_illegal : answer (.rdd 6) dataCall = some 0x80000006#32 := by decide

/-- R142: `RDS 1` and `RDS 4` after K2. -/
theorem test_rds : answer (.rds 1) summedCall = some 0x75#32 ∧ answer (.rds 4) summedCall = some 0x35#32 := by decide
/-- R141, R142: outside SUMMED. -/
theorem test_rds_phase : answer (.rds 0) verifiedCall = some 0x80000007#32 := by decide

/-- R75: a reserved opcode faults, and is refused in phase FAULT with the code of the first fault. -/
theorem test_reserved14 :
    answer (.reservedOp14 0) State.reset = some 0x80000006#32 ∧
    answer (.reservedOp14 0) faultCall = some 0x80000004#32 := by decide
theorem test_reserved15 : seen (.reservedOp15 7) dataCall = some (some 0x80000006, 0x8C01, .fault, 6) := by decide

/-! ### Steps and ports -/

/-- `withFetchWord` puts the word where the very next step takes it (vector G1). -/
theorem test_withFetchWord :
    (match step (State.reset.withFetchWord 16 0x4000) with
      | .next t => decide (t.rsp = some 0#32 ∧ t.engine.chk = 0x20#30 ∧ t.inputs = [])
      | .fault _ => false
      | .refused _ => false) = true := by decide

/-- A step with no input hands the held response over. -/
theorem test_step_waits :
    step { State.reset with rsp := some 7#32, outputs := [6#32] } =
      .next { State.reset with outputs := [6#32, 7#32] } :=
  rfl

/-- R217: an accepted command makes `cmd_ready` 0. -/
theorem test_clock_accepts :
    (match clock PortState.reset ⟨false, true, 0x4000#16, false⟩ with
      | .next q => decide (q.out.cmdReady = false ∧ q.core.engine.chk = 0x20#30)
      | .fault _ => false
      | .refused _ => false) = true := by decide

/-! ### Witnesses: states and operands that meet the hypotheses of the statements, clause by clause

Where a clause asks only for a phase, `phased` is the witness. -/

/-- A fresh call with `STRICT = 0` and an entry of HBUF left over from an earlier call. -/
def laxFresh : State := holding { Engine.reset with strict := false, hbuf := [(5, 3)] }

theorem inv_laxFresh : laxFresh.Inv := by constructor <;> decide
theorem inv_hrpCall : hrpCall.Inv := by constructor <;> decide
theorem inv_dataCall : dataCall.Inv := by constructor <;> decide
theorem inv_summedCall : summedCall.Inv := by constructor <;> decide
theorem inv_goodCall : goodCall.Inv := by constructor <;> decide
theorem inv_verifiedCall : verifiedCall.Inv := by constructor <;> decide
theorem inv_faultCall : faultCall.Inv := by constructor <;> decide
set_option maxRecDepth 4000 in
theorem inv_fullHrp : fullHrp.Inv := by constructor <;> decide

theorem fresh_reset : State.reset.engine.fresh := ⟨rfl, rfl, rfl, rfl, rfl, rfl, rfl⟩

theorem witness_InitOpensFreshCall :
    (∃ t : State, exec .init badCall = .next t) ∧
    (∃ (i : Instr) (t : State), faultCall.engine.phase = .fault ∧ exec i faultCall = .next t ∧
      t.engine.phase ≠ .fault) :=
  ⟨⟨_, rfl⟩, .init, _, rfl, rfl, by decide⟩

theorem witness_S2dAnswersDigitOfSymbol :
    (phased .verified).engine.phase ≠ .fault ∧ (∀ d : Digit, d2s d ≠ 0x31#8) ∧ (∀ d : Digit, d2s d ≠ 0x6F#8) ∧
    faultCall.engine.phase = .fault := by decide

theorem witness_D2sAnswersSymbolOfDigit :
    hrpCall.engine.phase ≠ .fault ∧ (31#8).toNat ≤ 31 ∧ 31 < (32#8).toNat ∧ faultCall.engine.phase = .fault := by decide

theorem witness_SymbolMapsAreInverse : s2d 0x71#8 = some 0#5 ∧ s2d 0x6C#8 = some 31#5 := by decide

set_option maxRecDepth 4000 in
theorem witness_HrpbTakesOneByte :
    ((phased .idle).engine.phase = .idle ∧ (phased .idle).engine.hbuf.wf = true ∧
      (phased .idle).engine.hlen.toNat < 83 ∧ 33 ≤ (33#8).toNat ∧ (126#8).toNat ≤ 126) ∧
    (hrpCall.engine.phase = .hrp ∧ hrpCall.engine.hbuf.wf = true) ∧
    (fullHrp.engine.phase = .hrp ∧ fullHrp.engine.hlen.toNat = 83) ∧
    ((32#8).toNat < 33 ∧ 126 < (127#8).toNat) ∧
    (dataCall.engine.phase = .data ∧ summedCall.engine.phase = .summed ∧ verifiedCall.engine.phase = .verified) ∧
    faultCall.engine.phase = .fault := by decide

/-- The last byte `HRPB` accepts is the 83rd, at HLEN 82. -/
theorem witness_HrpbTakesOneByte_last :
    let s := holding { fullHrp.engine with hlen := 82#7 }
    s.engine.phase = .hrp ∧ s.engine.hlen.toNat < 83 ∧ ¬ s.engine.hlen.toNat + 1 < 83 := by decide

theorem witness_HrpendAbsorbsBufferedParts :
    (hrpCall.engine.phase = .hrp ∧ 0 < hrpCall.engine.hlen.toNat ∧ hrpCall.engine.hlen.toNat ≤ 83) ∧
    (fullHrp.engine.phase = .hrp ∧ 0 < fullHrp.engine.hlen.toNat ∧ fullHrp.engine.hlen.toNat ≤ 83) ∧
    ((phased .idle).engine.phase = .idle ∧ (phased .idle).engine.hlen = 0#7) ∧
    (dataCall.engine.phase = .data ∧ summedCall.engine.phase = .summed ∧ verifiedCall.engine.phase = .verified) ∧
    faultCall.engine.phase = .fault := by decide

theorem witness_HrpExpandListsHighZeroLow : (0 : Nat) < [0x61#8].length := by decide

set_option maxRecDepth 4000 in
theorem witness_HrpStreamFaultsExactlyWhenInvalid :
    State.reset.engine.fresh ∧ State.reset.engine.hbuf.wf = true ∧
    validHrp [33#8, 126#8] = true ∧ validHrp (List.replicate 83 0x61#8) = true ∧ validHrp [] = false ∧
    validHrp (List.replicate 84 0x61#8) = false ∧ validHrp [32#8] = false ∧ validHrp [127#8] = false ∧
    (List.replicate 83 33#8).length = 83 ∧ (∀ c ∈ [33#8, 126#8], 33 ≤ c.toNat ∧ c.toNat ≤ 126) :=
  ⟨fresh_reset, by decide, by decide, by decide, by decide, by decide, by decide, by decide, by decide, by decide⟩

theorem witness_HrpCallLeavesPolymodOfExpansion :
    State.reset.engine.fresh ∧ State.reset.engine.hbuf.wf = true ∧ validHrp [0x62#8, 0x63#8] = true ∧
    2 ≤ [0x62#8, 0x63#8].length :=
  ⟨fresh_reset, by decide, by decide, by decide⟩

/-- Vector V1: a message that verifies. -/
theorem witness_OneChangedDigitIsDetected :
    (10#5 ≠ 11#5) ∧ verifyChecksum [0x61#8] ([] ++ [10#5] ++ [28, 25, 31, 20, 31]) = true := by decide

theorem witness_DigAbsorbsOneDigit :
    ((phased .idle).engine.phase = .idle ∧ dataCall.engine.phase = .data) ∧ (31#8).toNat ≤ 31 ∧ 31 < (32#8).toNat ∧
    (hrpCall.engine.phase = .hrp ∧ summedCall.engine.phase = .summed ∧ verifiedCall.engine.phase = .verified) ∧
    faultCall.engine.phase = .fault := by decide

theorem witness_SymAbsorbsDigitOfSymbol :
    dataCall.engine.phase = .data ∧ (∀ r : Digit, d2s r ≠ 0x62#8) ∧ hrpCall.engine.phase = .hrp ∧
    faultCall.engine.phase = .fault ∧
    (∃ t u : State, exec (.sym (d2s 10)) dataCall = .next t ∧ exec (.dig ((10#5).setWidth 8)) dataCall = .next u) :=
  ⟨by decide, by decide, by decide, by decide, _, _, rfl, rfl⟩

theorem witness_CsumCreatesChecksum :
    dataCall.engine.phase = .data ∧ (phased .idle).engine.phase = .idle ∧ hrpCall.engine.phase = .hrp ∧
    summedCall.engine.phase = .summed ∧ verifiedCall.engine.phase = .verified ∧ faultCall.engine.phase = .fault := by
  decide

theorem witness_VrfyJudgesResidue :
    (goodCall.engine.phase = .data ∧ 6 ≤ goodCall.engine.dcnt.toNat ∧ goodCall.engine.chk = 1#30) ∧
    (laxCall.engine.phase = .data ∧ 6 ≤ laxCall.engine.dcnt.toNat ∧ laxCall.engine.chk ≠ 1#30 ∧
      laxCall.engine.strict = false) ∧
    (badCall.engine.phase = .data ∧ 6 ≤ badCall.engine.dcnt.toNat ∧ badCall.engine.chk ≠ 1#30 ∧
      badCall.engine.strict = true) ∧
    (5#3).toNat < 6 ∧ (dataCall.engine.phase = .data ∧ dataCall.engine.dcnt.toNat < 6) ∧
    hrpCall.engine.phase = .hrp ∧ faultCall.engine.phase = .fault := by decide

theorem witness_RddAnswersChecksumDigit :
    (summedCall.engine.phase = .summed ∧ summedCall.engine.d.toList[(5#3).toNat]? = some 31#5 ∧
      summedCall.engine.d.toList[(0#3).toNat]? = some 10#5) ∧
    ((5#3).toNat ≤ 5 ∧ dataCall.engine.phase ≠ .summed ∧ dataCall.engine.phase ≠ .fault) ∧
    (5 < (6#3).toNat ∧ summedCall.engine.phase ≠ .fault) ∧ faultCall.engine.phase = .fault := by decide

theorem witness_RdsAnswersChecksumSymbol :
    (summedCall.engine.phase = .summed ∧ summedCall.engine.d.toList[(3#3).toNat]? = some 31#5) ∧
    ((0#3).toNat ≤ 5 ∧ verifiedCall.engine.phase ≠ .summed ∧ verifiedCall.engine.phase ≠ .fault) ∧
    (5 < (7#3).toNat ∧ summedCall.engine.phase ≠ .fault) ∧ faultCall.engine.phase = .fault := by decide

theorem witness_ReservedOpcodesAreIllegal :
    summedCall.engine.phase ≠ .fault ∧ faultCall.engine.phase = .fault := by decide

theorem witness_MaskTableSelectsCommand :
    (denotes 0x20FF#16 (.hrpb 255) = true ∧ (Instr.hrpb 255).legal = true) ∧
    0x0000#16 &&& 0xFFFF#16 = 0x0000#16 ∧ 0x1000#16 &&& 0xFFFF#16 = 0x1000#16 ∧ 0x20FF#16 &&& 0xFF00#16 = 0x2000#16 ∧
    0x3000#16 &&& 0xFFFF#16 = 0x3000#16 ∧ 0x40FF#16 &&& 0xFF00#16 = 0x4000#16 ∧ 0x50FF#16 &&& 0xFF00#16 = 0x5000#16 ∧
    0x6000#16 &&& 0xFFFF#16 = 0x6000#16 ∧ 0x7000#16 &&& 0xFFFF#16 = 0x7000#16 ∧ 0x80FF#16 &&& 0xFF00#16 = 0x8000#16 ∧
    0x90FF#16 &&& 0xFF00#16 = 0x9000#16 ∧ (0xA005#16 &&& 0xFFF8#16 = 0xA000#16 ∧ (0xA005#16).toNat % 256 ≤ 5) ∧
    (0xB005#16 &&& 0xFFF8#16 = 0xB000#16 ∧ (0xB005#16).toNat % 256 ≤ 5) ∧ 0xC003#16 &&& 0xFFFC#16 = 0xC000#16 ∧
    0xD001#16 &&& 0xFFFE#16 = 0xD000#16 := by decide

theorem witness_DecodeUndoesEncode : (Instr.rdd 5).wf = true ∧ (Instr.reservedOp15 0xFFF).wf = true := by decide

theorem witness_EveryWordIsOneCommandOrIllegal :
    legalByR73 0xA005 ∧ ¬ legalByR73 0xA006 ∧ legalByR73 0xD001 ∧ ¬ legalByR73 0xD002 ∧ illegalByR75 0xC004 ∧
    illegalByR75 0xE000 ∧ (Instr.rdd 5).legal = true ∧ encode (.rdd 5) = 0xA005#16 :=
  ⟨by norm_num [legalByR73], by norm_num [legalByR73], by norm_num [legalByR73], by norm_num [legalByR73],
    by norm_num [illegalByR75], by norm_num [illegalByR75], by decide, by decide⟩

theorem witness_StepRunsDecodedCommand :
    ({ dataCall with inputs := [.command 0x4000#16] } : State).inputs = [.command 0x4000#16] ∧
    denotes 0x4000#16 (.dig 0) = true ∧ rejected 0xA006#16 .digitIndexOutOfRange = true ∧
    dataCall.engine.phase ≠ .fault ∧ faultCall.engine.phase = .fault := by decide

theorem witness_EngineWaitsWithoutInput : dataCall.inputs = [] := rfl

theorem witness_LegalityTableGoverns :
    ((Instr.rdd 5).wf = true ∧ legalityTable (.rdd 5) dataCall.engine.phase = some .phaseError) ∧
    ((Instr.s2d 0).wf = true ∧ legalityTable (.s2d 0) faultCall.engine.phase = some .refused) ∧
    ((Instr.hrpb 33).wf = true ∧ legalityTable (.hrpb 33) hrpCall.engine.phase = some .ok ∧ hrpCall.Inv) ∧
    (laxFresh.Inv ∧ laxFresh.engine.phase = .idle) ∧
    (illegalByR75 (0x0001#16 : CmdWord).toNat ∧ dataCall.engine.phase ≠ .fault ∧ faultCall.engine.phase = .fault) :=
  ⟨by decide, by decide, ⟨by decide, by decide, inv_hrpCall⟩, ⟨inv_laxFresh, by decide⟩,
    by unfold illegalByR75; decide, by decide, by decide⟩

theorem witness_PhaseTransitionsFollowTable :
    (∃ t : State, dataCall.Inv ∧ exec (.dig 31) dataCall = .next t ∧ t.answeredOk ∧ dataCall.engine.phase ≠ .fault) ∧
    (∃ t : State, dataCall.Inv ∧ exec (.dig 32) dataCall = .next t ∧ t.answeredError) ∧
    (∃ t : State, faultCall.Inv ∧ exec (.dig 0) faultCall = .next t ∧ faultCall.engine.phase = .fault ∧
      Instr.dig 0 ≠ .init) ∧
    ({ dataCall with inputs := [.reset] } : State).inputs = [.reset] :=
  ⟨⟨_, inv_dataCall, rfl, ⟨_, rfl, by decide⟩, by decide⟩, ⟨_, inv_dataCall, rfl, ⟨_, rfl, by decide⟩⟩,
    ⟨_, inv_faultCall, rfl, by decide, by decide⟩, rfl⟩

theorem witness_EveryWordGivesOneResponse : fullHrp.Inv ∧ faultCall.Inv := ⟨inv_fullHrp, inv_faultCall⟩

theorem witness_StepNeverStops : ({ fullHrp with inputs := [.command 0x3000#16] } : State).Inv := inv_fullHrp

theorem witness_IllegalWordsFault :
    (illegalByR75 (0xB006#16 : CmdWord).toNat ∧ illegalByR75 (0x2F00#16 : CmdWord).toNat ∧
      summedCall.engine.phase ≠ .fault) ∧
    faultCall.engine.phase = .fault ∧ ¬ illegalByR75 (0xB005#16 : CmdWord).toNat := by
  unfold illegalByR75; decide

theorem witness_FaultEntryWritesPhaseAndErrAlone :
    ∃ t : State, goodCall.engine.phase ≠ .fault ∧ runWord 0x4020#16 goodCall = .next t ∧ t.answeredError :=
  ⟨_, by decide, rfl, _, rfl, by decide⟩

theorem witness_FirstFaultIsKept :
    ∃ t : State, faultCall.engine.phase = .fault ∧ runWord 0x4020#16 faultCall = .next t ∧ 0x4020#16 ≠ 0x1000#16 ∧
      t.answeredError :=
  ⟨_, rfl, rfl, by decide, _, rfl, by decide⟩

theorem witness_FaultPhaseTurnsAwayAllButFour :
    faultCall.engine.phase = .fault ∧ (0xC000 ≤ (0xC003#16 : CmdWord).toNat ∧ (0xC003#16 : CmdWord).toNat ≤ 0xC003) ∧
    ¬ ((0xC004#16 : CmdWord) = 0x0000#16 ∨ (0xC004#16 : CmdWord) = 0x1000#16 ∨
      (0xC000 ≤ (0xC004#16 : CmdWord).toNat ∧ (0xC004#16 : CmdWord).toNat ≤ 0xC003) ∨
      (0xD000 ≤ (0xC004#16 : CmdWord).toNat ∧ (0xC004#16 : CmdWord).toNat ≤ 0xD001)) := by decide

theorem witness_OnlyInitAndResetLeaveFault :
    (∃ t : State, step { faultCall with inputs := [.reset] } = .next t ∧ t.engine.phase ≠ .fault) ∧
    (∃ t : State, step { faultCall with inputs := [.command 0x1000#16] } = .next t ∧ t.engine.phase ≠ .fault) ∧
    faultCall.engine.phase = .fault :=
  ⟨⟨_, rfl, by decide⟩, ⟨_, rfl, by decide⟩, rfl⟩

theorem witness_FaultPriorityOrder :
    (∃ t : State, faultCall.engine.phase = .fault ∧ runWord 0xA006#16 faultCall = .next t) ∧
    (dataCall.engine.phase ≠ .fault ∧ illegalByR75 (0xA006#16 : CmdWord).toNat) ∧
    (denotes 0x4020#16 (.dig 0x20) = true ∧ legalityTable (.dig 0x20) hrpCall.engine.phase = some .phaseError ∧
      ¬ illegalByR75 (0x4020#16 : CmdWord).toNat) ∧
    (fullHrp.engine.phase = .hrp ∧ fullHrp.engine.hlen.toNat = 83 ∧ (32#8).toNat < 33 ∧ 126 < (127#8).toNat) ∧
    ((phased .idle).engine.phase = .idle ∧ (phased .idle).engine.hlen = 0#7) ∧ 31 < (32#8).toNat ∧
    (∀ r : Digit, d2s r ≠ 0x51#8) ∧
    (badCall.engine.phase = .data ∧ 6 ≤ badCall.engine.dcnt.toNat ∧ badCall.engine.chk ≠ 1#30 ∧
      badCall.engine.strict = true) ∧
    (let s := holding { dataCall.engine with dcnt := 5#3 }; s.engine.phase = .data ∧ s.engine.dcnt = 5#3 ∧
      s.engine.dcnt.toNat < 6) :=
  ⟨⟨_, rfl, rfl⟩, by unfold illegalByR75; decide, by unfold illegalByR75; decide, by decide, by decide, by decide,
    by decide, by decide, by decide⟩

theorem witness_StateIsWrittenByItsWritersAlone :
    (∃ t : State, exec (.hrpb 0x62) hrpCall = .next t ∧ t.engine.chk ≠ hrpCall.engine.chk ∧
      t.engine.hlen ≠ hrpCall.engine.hlen ∧ t.engine.hbuf ≠ hrpCall.engine.hbuf) ∧
    (∃ t : State, exec .csum dataCall = .next t ∧ t.engine.d ≠ dataCall.engine.d) ∧
    (∃ t : State, exec (.dig 0) dataCall = .next t ∧ t.engine.dcnt ≠ dataCall.engine.dcnt) ∧
    (∃ t : State, exec (.dig 32) dataCall = .next t ∧ t.engine.err ≠ dataCall.engine.err) ∧
    (∃ t : State, exec .vrfy goodCall = .next t ∧ t.engine.v ≠ goodCall.engine.v) ∧
    (∃ t : State, exec (.wrc 0) goodCall = .next t ∧ t.engine.strict ≠ goodCall.engine.strict) :=
  ⟨⟨_, rfl, by decide, by decide, by decide⟩, ⟨_, rfl, by decide⟩, ⟨_, rfl, by decide⟩, ⟨_, rfl, by decide⟩,
    ⟨_, rfl, by decide⟩, ⟨_, rfl, by decide⟩⟩

theorem witness_HlenCountsAcceptedHrpBytes :
    (∃ t : State, hrpCall.Inv ∧ exec (.hrpb 126) hrpCall = .next t ∧ t.answeredOk) ∧
    (∃ t : State, fullHrp.Inv ∧ exec (.hrpb 126) fullHrp = .next t ∧ t.answeredError) :=
  ⟨⟨_, inv_hrpCall, rfl, _, rfl, by decide⟩, ⟨_, inv_fullHrp, rfl, _, rfl, by decide⟩⟩

theorem witness_StepKeepsInvariant :
    ∃ t : State, ({ goodCall with inputs := [.command 0x7000#16] } : State).Inv ∧
      step { goodCall with inputs := [.command 0x7000#16] } = .next t :=
  ⟨_, inv_goodCall, rfl⟩

/-- Two states that differ in an entry the call has not written. -/
theorem witness_UnwrittenBufferIsUnobservable :
    let s := holding { hrpCall.engine with hbuf := [(0, 1), (7, 9)] }
    ∃ s' t' : State, s.Inv ∧ hrpCall.Inv ∧ s.engine.sameCall hrpCall.engine ∧ s.engine ≠ hrpCall.engine ∧
      runWord 0x3000#16 s = .next s' ∧ runWord 0x3000#16 hrpCall = .next t' :=
  ⟨_, _, by constructor <;> decide, inv_hrpCall, ⟨rfl, by decide⟩, by decide, rfl, rfl⟩

theorem witness_CallDependsOnItsWordsAndStrictAlone :
    summedCall.Inv ∧ faultCall.Inv ∧ summedCall.engine.strict = faultCall.engine.strict ∧
    summedCall.outputs = faultCall.outputs ∧ summedCall.rsp = faultCall.rsp ∧ summedCall.engine ≠ faultCall.engine :=
  ⟨inv_summedCall, inv_faultCall, by decide, by decide, by decide, by decide⟩

theorem witness_ChkIsPolymodOfDigitsFed :
    let is : List Instr := [.hrpb 0x61, .hrpend, .sym 0x32, .dig 3]
    ∃ t : State, State.reset.engine.fresh ∧ State.reset.engine.hbuf.wf = true ∧ (∀ i ∈ is, i ≠ .init) ∧
      (∀ i ∈ is, i.wf = true) ∧ Host.Core.run Sys2Proof.core is.length (State.reset.load is) = .next t ∧
      t.engine.phase ≠ .fault ∧ t.engine.phase ≠ .summed :=
  ⟨_, fresh_reset, by decide, by decide, by decide, rfl, by decide, by decide⟩

theorem witness_ChecksumCallComputesCreateChecksum :
    faultCall.engine.hbuf.wf = true ∧ validHrp [0x62#8, 0x63#8] = true := by decide

/-- Vectors V2 and V4: a message that verifies and one that does not. -/
theorem witness_VerifyCallComputesVerifyChecksum :
    badCall.engine.hbuf.wf = true ∧ validHrp [0x62#8, 0x63#8] = true ∧
    6 ≤ [0#5, 14, 31, 10, 17, 11, 18, 14, 20].length ∧ 6 ≤ [10#5, 28, 25, 31, 20, 31].length ∧
    verifyChecksum [0x62#8, 0x63#8] [0, 14, 31, 10, 17, 11, 18, 14, 20] = true ∧
    verifyChecksum [0x62#8, 0x63#8] [0, 16, 31, 10, 17, 11, 18, 14, 20] = false ∧
    badCall.engine.strict = true ∧ laxCall.engine.strict = false := by decide

theorem witness_CreateThenVerifyAnswersOne : summedCall.engine.hbuf.wf = true ∧ validHrp [0x61#8] = true := by decide

theorem witness_ResetDropsEverything :
    ({ faultCall with rsp := some 0#32, inputs := [.reset] } : State).inputs = [.reset] ∧
    (⟨true, true, 0x4000#16, false⟩ : PinsIn).rst = true := by decide

/-- The ports with `s` as the engine's state and nothing else going on. -/
def portsAt (s : State) (wait : Nat) : PortState := { PortState.reset with core := s, wait := wait }

theorem witness_OneCommandInFlight :
    (∃ q : PortState, (portsAt dataCall 0).accepts ⟨false, true, 0x4000#16, false⟩ = true ∧
      clock (portsAt dataCall 0) ⟨false, true, 0x4000#16, false⟩ = .next q) ∧
    (let p := portsAt { dataCall with rsp := some 5#32 } 1
      ∃ q : PortState, p.out.cmdReady = false ∧ p.transfers ⟨false, true, 0#16, true⟩ = false ∧
        clock p ⟨false, true, 0#16, true⟩ = .next q) ∧
    (let p := portsAt { dataCall with rsp := some 5#32 } 0
      ∃ q : PortState, p.out.rsp = some 5#32 ∧ clock p ⟨false, false, 0#16, false⟩ = .next q) ∧
    (let p := portsAt { dataCall with rsp := some 5#32 } 1
      ∃ q : PortState, p.core.rsp = some 5#32 ∧ [(⟨false, false, 0#16, true⟩ : PinsIn)].length = p.wait ∧
        clockRun [⟨false, false, 0#16, true⟩] p = .next q) ∧
    (let p := portsAt { dataCall with rsp := some 5#32 } 0
      ∃ q : PortState, p.out.rsp = some 5#32 ∧ clock p ⟨false, false, 0#16, true⟩ = .next q) :=
  ⟨⟨_, by decide, rfl⟩, ⟨_, by decide, by decide, rfl⟩, ⟨_, by decide, rfl⟩, ⟨_, rfl, rfl, rfl⟩, ⟨_, by decide, rfl⟩⟩

theorem witness_PortsCarryTheTransactions :
    ∃ q : PortState, (∀ i ∈ [(⟨false, true, 0x4000#16, true⟩ : PinsIn), ⟨false, false, 0#16, false⟩], i.rst = false) ∧
      clockRun [⟨false, true, 0x4000#16, true⟩, ⟨false, false, 0#16, false⟩] PortState.reset = .next q :=
  ⟨_, by decide, rfl⟩

theorem witness_HandshakeBreakersHaveNoMove :
    (let p := { portsAt { dataCall with rsp := some 5#32 } 1 with offered := some 0x4000#16 };
      p.offered = some 0x4000#16 ∧ (⟨false, false, 0x4000#16, false⟩ : PinsIn).cmdValid = false ∧
        (⟨false, true, 0x4001#16, false⟩ : PinsIn).cmdData ≠ 0x4000#16) ∧
    ((portsAt dataCall 0).core.Inv ∧ (portsAt dataCall 0).hostKeepsOffer ⟨false, true, 0#16, false⟩ = true) ∧
    (∃ q : PortState, (portsAt { dataCall with rsp := some 5#32 } 1).accepts ⟨false, true, 0#16, false⟩ = false ∧
      clock (portsAt { dataCall with rsp := some 5#32 } 1) ⟨false, true, 0#16, false⟩ = .next q) :=
  ⟨by decide, ⟨inv_dataCall, by decide⟩, _, by decide, rfl⟩

end Sys2Proof.Tests
end

/-! The state of the machine (spec/10_state.md): the invariant of R37, who writes which piece of state (R20, R27), and
that entries of HBUF not written in the call are not observable (R29). -/

namespace Sys2Proof.Machine

/-! ### The invariant of R37 under each update of the architectural state -/

section Invariant

variable {e : Engine}

/-- A fresh call with HBUF in its canonical form meets the invariant. -/
theorem Engine.Inv.of_fresh (h : e.fresh) (hm : e.hbuf.wf = true) : e.Inv := by
  obtain ⟨hchk, hd, hphase, herr, hv, hhlen, hdcnt⟩ := h
  constructor <;> simp [hchk, hd, hphase, herr, hv, hhlen, hdcnt, hm, Digits.zero]

/-- `INIT` opens a fresh call (R161). -/
theorem Engine.openCall_fresh (e : Engine) : e.openCall.fresh := ⟨rfl, rfl, rfl, rfl, rfl, rfl, rfl⟩

/-- The reset state is a fresh call (R38). -/
theorem Engine.reset_fresh : Engine.reset.fresh := ⟨rfl, rfl, rfl, rfl, rfl, rfl, rfl⟩

/-- In the phases IDLE, HRP and DATA there is no fault, no verdict and no checksum yet. -/
theorem Engine.Inv.of_absorbing (h : e.Inv) (hp : e.phase = .idle ∨ e.phase = .hrp ∨ e.phase = .data) :
    e.err = 0#4 ∧ e.v = false ∧ e.d = Digits.zero := by
  obtain ⟨hsummed, hverified, hfault⟩ : e.phase ≠ .summed ∧ e.phase ≠ .verified ∧ e.phase ≠ .fault := by
    rcases hp with hp | hp | hp <;> simp [hp]
  refine ⟨h.err_zero_iff.mpr hfault, ?_, h.unsummed_digits hsummed hfault⟩
  by_contra hv
  rcases (h.v_verdict (by simpa using hv)).2 with hphase | hphase
  · exact hverified hphase
  · exact hfault hphase

/-- In the phases IDLE and HRP no data digit was absorbed. -/
theorem Engine.Inv.dcnt_zero (h : e.Inv) (hp : e.phase = .idle ∨ e.phase = .hrp) : e.dcnt = 0#3 := by
  rcases hp with hp | hp
  · obtain ⟨-, hdcnt, -, -⟩ := h.idle_fresh hp
    exact hdcnt
  · exact h.hrp_dcnt hp

/-- The number of a fault code is not 0. -/
theorem FaultCode.code_ne_zero (c : FaultCode) : c.code ≠ 0#4 := by cases c <;> decide

/-- The saturating count stays at most 6 (R28). -/
theorem countDigit_le (n : BitVec 3) : (countDigit n).toNat ≤ 6 := by revert n; decide

/-- Taking a fault keeps the invariant: D is 0 or, from SUMMED, the checksum (R186). -/
theorem Engine.Inv.enterFault (h : e.Inv) (hf : e.phase ≠ .fault) (c : FaultCode) : (e.enterFault c).Inv := by
  have hd : e.d = Digits.zero ∨ e.d = Digits.ofPacked (e.chk ^^^ 1#30) := by
    by_cases hs : e.phase = .summed
    · exact .inr (h.summed_digits hs)
    · exact .inl (h.unsummed_digits hs hf)
  exact ⟨by simp [c.code_ne_zero], c.code_range.2, h.hlen_le, nofun, nofun, h.dcnt_le, nofun,
    fun hv => ⟨(h.v_verdict hv).1, .inr rfl⟩, nofun, fun _ hne => (hne rfl).elim, fun _ => hd, h.hbuf_wf⟩

/-- `INIT` keeps the invariant. -/
theorem Engine.Inv.openCall (h : e.Inv) : e.openCall.Inv := .of_fresh e.openCall_fresh h.hbuf_wf

/-- `WRC` keeps the invariant, which does not speak of STRICT. -/
theorem Engine.Inv.writeCtrl (h : e.Inv) (v : BitVec 1) : (e.writeCtrl v).Inv :=
  { h with }

/-- An accepted HRP byte makes HLEN one more. -/
theorem Engine.takeHrpByte_hlen_toNat (b : Byte) (m : Memory) (h : e.hlen.toNat < 83) :
    (e.takeHrpByte b m).hlen.toNat = e.hlen.toNat + 1 := by
  have hlt : e.hlen.toNat + (1#7).toNat < 2 ^ 7 := show e.hlen.toNat + 1 < 128 by omega
  exact BitVec.toNat_add_of_lt hlt

/-- `HRPB` keeps the invariant. -/
theorem Engine.Inv.takeHrpByte (h : e.Inv) (hp : e.phase = .idle ∨ e.phase = .hrp) {b : Byte} {v : Digit} {m : Memory}
    (hw : e.hbuf.write e.hlen.toNat v = some m) : (e.takeHrpByte b m).Inv := by
  obtain ⟨herr, hv, hd⟩ := h.of_absorbing (by tauto)
  obtain ⟨hlt, hm, -, -⟩ := Memory.write_spec h.hbuf_wf hw
  have hlen := Engine.takeHrpByte_hlen_toNat b m hlt
  have hle : e.hlen.toNat + 1 ≤ 83 := hlt
  constructor <;> simp [-Engine.takeHrpByte_hlen, hlen, hle, herr, hv, hd, hm, h.dcnt_zero hp]

/-- `HRPEND` keeps the invariant. -/
theorem Engine.Inv.closeHrp (h : e.Inv) (hp : e.phase = .idle ∨ e.phase = .hrp) (lows : List Digit) :
    (e.closeHrp lows).Inv := by
  obtain ⟨herr, hv, hd⟩ := h.of_absorbing (by tauto)
  constructor <;> simp [herr, hv, hd, h.hlen_le, h.hbuf_wf]

/-- `DIG` and `SYM` keep the invariant. -/
theorem Engine.Inv.takeDigit (h : e.Inv) (hp : e.phase = .idle ∨ e.phase = .data) (x : Digit) :
    (e.takeDigit x).Inv := by
  obtain ⟨herr, hv, hd⟩ := h.of_absorbing (by tauto)
  constructor <;> simp [herr, hv, hd, h.hlen_le, h.hbuf_wf, countDigit_le]

/-- `CSUM` keeps the invariant: D holds the checksum of the new CHK (R139). -/
theorem Engine.Inv.sum (h : e.Inv) (hp : e.phase = .idle ∨ e.phase = .data) : e.sum.Inv := by
  obtain ⟨herr, hv, -⟩ := h.of_absorbing (by tauto)
  constructor <;> simp [herr, hv, h.hlen_le, h.hbuf_wf, h.dcnt_le]

/-- `VRFY` keeps the invariant: the verdict is whether CHK is 1 (R140). -/
theorem Engine.Inv.judge (h : e.Inv) (hp : e.phase = .idle ∨ e.phase = .data) : (e.judge (e.chk == 1#30)).Inv := by
  obtain ⟨herr, -, hd⟩ := h.of_absorbing (by tauto)
  constructor <;> simp [herr, hd, h.hlen_le, h.hbuf_wf, h.dcnt_le]

end Invariant

/-- An instruction that completes keeps the invariant. -/
theorem Effect.keeps_inv {i : Instr} {e e' : Engine} {x : Nat} (he : Effect i e e' x) (h : e.Inv) : e'.Inv := by
  cases i with
  | nop | rdr n => obtain ⟨rfl, -⟩ := he; exact h
  | init => obtain ⟨rfl, -⟩ := he; exact h.openCall
  | wrc v => obtain ⟨rfl, -⟩ := he; exact h.writeCtrl v
  | s2d c => obtain ⟨-, r, -, rfl, -⟩ := he; exact h
  | d2s d | rdd k | rds k => obtain ⟨-, -, rfl, -⟩ := he; exact h
  | hrpb b => obtain ⟨hp, -, -, m, hm, rfl, -⟩ := he; exact h.takeHrpByte hp hm
  | hrpend => obtain ⟨hp, -, lows, -, rfl, -⟩ := he; exact h.closeHrp hp lows
  | dig d => obtain ⟨hp, -, rfl, -⟩ := he; exact h.takeDigit hp _
  | sym c => obtain ⟨hp, r, -, rfl, -⟩ := he; exact h.takeDigit hp r
  | csum => obtain ⟨hp, rfl, -⟩ := he; exact h.sum hp
  | vrfy => obtain ⟨hp, -, -, rfl, -⟩ := he; exact h.judge hp
  | reservedOp14 r | reservedOp15 r => exact he.elim

/-- A fault leaves the architectural state of `Engine.enterFault` (R186). -/
theorem State.faulted_engine (s : State) (c : FaultCode) :
    (s.faulted c.code.toNat).engine = s.engine.enterFault c := by
  simp [State.faulted, Engine.enterFault]

/-- Executing an instruction keeps the invariant. -/
theorem exec_keeps_inv {i : Instr} {s t : State} (h : s.Inv) (hx : exec i s = .next t) : t.Inv := by
  rcases exec_inv hx with ⟨-, -, rfl⟩ | ⟨hf, c, -, rfl⟩ | ⟨-, -, e, x, he, rfl⟩
  · exact h
  · rw [State.Inv, State.faulted_engine]
    exact Engine.Inv.enterFault h hf c
  · exact he.keeps_inv h

/-- Executing a word keeps the invariant. -/
theorem runWord_keeps_inv {w : CmdWord} {s t : State} (h : s.Inv) (hr : runWord w s = .next t) : t.Inv :=
  runWord_engine_inv (P := Engine.Inv) hr h (fun hf c => Engine.Inv.enterFault h hf c) fun _ _ _ _ he => he.keeps_inv h

/-- Settles O44: the reset state is a fresh call with an empty HBUF. -/
theorem resetMeetsInvariant : Obligations.ResetMeetsInvariant :=
  Engine.Inv.of_fresh Engine.reset_fresh rfl

/-- Settles O45: a step waits, resets, or executes a word, and each keeps the invariant. -/
theorem stepKeepsInvariant : Obligations.StepKeepsInvariant := by
  intro s t h hstep
  rcases step_cases hstep with ⟨-, rfl⟩ | ⟨rest, -, rfl⟩ | ⟨w, rest, -, hr⟩
  · simpa [State.Inv] using h
  · exact resetMeetsInvariant
  · exact runWord_keeps_inv (by simpa [State.Inv] using h) hr

/-- Settles O43, by evaluation of the reset state and of `RDR` in it. -/
theorem resetValuesAreThoseOfTheSpec : Obligations.ResetValuesAreThoseOfTheSpec :=
  ⟨rfl, rfl, rfl, rfl, rfl, rfl, rfl, rfl, rfl, rfl, rfl, rfl, rfl, rfl⟩

/-! ### Who writes which piece of state (R20, R27) -/

/-- An instruction that completes changes a piece of state only as one of its writers in the table of R20. -/
theorem Effect.writers {i : Instr} {e e' : Engine} {x : Nat} (he : Effect i e e' x) :
    (e'.chk ≠ e.chk →
      i = .init ∨ (∃ b, i = .hrpb b) ∨ i = .hrpend ∨ (∃ d, i = .dig d) ∨ (∃ c, i = .sym c) ∨ i = .csum) ∧
    (e'.d ≠ e.d → i = .init ∨ i = .csum) ∧ (e'.err ≠ e.err → i = .init) ∧ (e'.v ≠ e.v → i = .init ∨ i = .vrfy) ∧
    (e'.hlen ≠ e.hlen → i = .init ∨ ∃ b, i = .hrpb b) ∧
    (e'.dcnt ≠ e.dcnt → i = .init ∨ i = .hrpend ∨ (∃ d, i = .dig d) ∨ ∃ c, i = .sym c) ∧
    (e'.strict ≠ e.strict → ∃ v, i = .wrc v) ∧ (e'.hbuf ≠ e.hbuf → ∃ b, i = .hrpb b) := by
  cases i with
  | nop | rdr n | init | wrc v => obtain ⟨rfl, -⟩ := he; simp
  | s2d c | sym c => obtain ⟨-, r, -, rfl, -⟩ := he; simp
  | d2s d | rdd k | rds k | dig d => obtain ⟨-, -, rfl, -⟩ := he; simp
  | hrpb b => obtain ⟨-, -, -, m, -, rfl, -⟩ := he; simp
  | hrpend => obtain ⟨-, -, lows, -, rfl, -⟩ := he; simp
  | csum => obtain ⟨-, rfl, -⟩ := he; simp
  | vrfy => obtain ⟨-, -, -, rfl, -⟩ := he; simp
  | reservedOp14 r | reservedOp15 r => exact he.elim

/-- Settles O41: a command turned away changes nothing, one that faults PHASE and ERR alone, and one that completes only
what it is a writer of. -/
theorem stateIsWrittenByItsWritersAlone : Obligations.StateIsWrittenByItsWritersAlone := by
  intro i s t h
  rcases exec_inv h with ⟨-, -, rfl⟩ | ⟨-, c, -, rfl⟩ | ⟨-, -, e, x, he, rfl⟩
  · exact ⟨absurd rfl, absurd rfl, absurd rfl, absurd rfl, absurd rfl, absurd rfl, absurd rfl, absurd rfl, rfl, rfl⟩
  · exact ⟨absurd rfl, absurd rfl, fun _ => .inr ⟨s.faulted_answeredError c, rfl⟩, absurd rfl, absurd rfl, absurd rfl,
      absurd rfl, absurd rfl, rfl, rfl⟩
  · obtain ⟨hchk, hd, herr, hv, hhlen, hdcnt, hstrict, hhbuf⟩ := he.writers
    exact ⟨hchk, hd, fun hne => .inl (herr hne), hv, hhlen, hdcnt, hstrict, hhbuf, rfl, rfl⟩

/-- `INIT` is executed in every phase (R161). -/
theorem exec_init (s : State) : exec .init s = .next (s.completes s.engine.openCall 0) :=
  (runCommand_ok rfl rfl).trans (commit_respond s s.engine.openCall 0)

/-- An instruction answered with `E = 0` completed with its effect. -/
theorem exec_answeredOk {i : Instr} {s t : State} (h : exec i s = .next t) (hok : t.answeredOk) :
    ∃ e x, Effect i s.engine e x ∧ t = s.completes e x := by
  rcases exec_inv h with ⟨-, -, rfl⟩ | ⟨-, c, -, rfl⟩ | ⟨-, -, hdone⟩
  · exact (State.not_ok_and_error hok s.turnedAway_answeredError).elim
  · exact (State.not_ok_and_error hok (s.faulted_answeredError c)).elim
  · exact hdone

/-- An instruction answered with `E = 1` was turned away or faulted. -/
theorem exec_answeredError {i : Instr} {s t : State} (h : exec i s = .next t) (herr : t.answeredError) :
    t = s.turnedAway ∨ ∃ c : FaultCode, t = s.faulted c.code.toNat := by
  rcases exec_inv h with ⟨-, -, rfl⟩ | ⟨-, c, -, rfl⟩ | ⟨-, -, e, x, he, rfl⟩
  · exact .inl rfl
  · exact .inr ⟨c, rfl⟩
  · exact (State.not_ok_and_error (he.answeredOk s) herr).elim

/-- Settles O42: the bound is the invariant's; the rest is by how `HRPB` was answered, and by the table of writers. -/
theorem hlenCountsAcceptedHrpBytes : Obligations.HlenCountsAcceptedHrpBytes := by
  refine ⟨rfl, fun i s t hinv h => ⟨(exec_keeps_inv hinv h).hlen_le, ?_, ?_, ?_, ?_⟩⟩
  · rintro rfl
    rw [exec_init] at h; cases h; rfl
  · rintro ⟨b, rfl⟩ hok
    obtain ⟨_, _, ⟨-, -, -, m, hm, rfl, -⟩, rfl⟩ := exec_answeredOk h hok
    exact Engine.takeHrpByte_hlen_toNat b m (Memory.write_spec hinv.hbuf_wf hm).1
  · rintro - herr
    rcases exec_answeredError h herr with rfl | ⟨c, rfl⟩ <;> rfl
  · intro hinit hhrpb
    obtain ⟨-, -, -, -, hhlen, -⟩ := stateIsWrittenByItsWritersAlone i s t h
    by_contra hne
    rcases hhlen hne with hi | ⟨b, hi⟩
    · exact hinit hi
    · exact hhrpb b hi

/-! ### Entries of HBUF the call has not written (R29) -/

section SameCall

variable {e f : Engine}

/-- What does not look at HBUF is equal in two such states. -/
theorem Engine.sameCall.congr {α : Type} (h : e.sameCall f) (g : Engine → α)
    (hg : ∀ (x : Engine) (m : Memory), g { x with hbuf := m } = g x) : g e = g f := by
  rw [← hg e [], h.1, hg f []]

theorem Engine.sameCall.chk (h : e.sameCall f) : e.chk = f.chk := h.congr Engine.chk fun _ _ => rfl
theorem Engine.sameCall.d (h : e.sameCall f) : e.d = f.d := h.congr Engine.d fun _ _ => rfl
theorem Engine.sameCall.phase (h : e.sameCall f) : e.phase = f.phase := h.congr Engine.phase fun _ _ => rfl
theorem Engine.sameCall.err (h : e.sameCall f) : e.err = f.err := h.congr Engine.err fun _ _ => rfl
theorem Engine.sameCall.hlen (h : e.sameCall f) : e.hlen = f.hlen := h.congr Engine.hlen fun _ _ => rfl
theorem Engine.sameCall.dcnt (h : e.sameCall f) : e.dcnt = f.dcnt := h.congr Engine.dcnt fun _ _ => rfl
theorem Engine.sameCall.strict (h : e.sameCall f) : e.strict = f.strict := h.congr Engine.strict fun _ _ => rfl

/-- No register shows HBUF. -/
theorem Engine.sameCall.register (h : e.sameCall f) (n : BitVec 2) : e.register n = f.register n :=
  h.congr (Engine.register · n) fun _ _ => rfl

/-- `HRPEND` reads the same entries. -/
theorem Engine.sameCall.readFirst (h : e.sameCall f) :
    e.hbuf.readFirst e.hlen.toNat = f.hbuf.readFirst f.hlen.toNat := by
  rw [← h.hlen]; exact Memory.readFirst_congr h.2

/-- An update that neither reads nor writes HBUF, and does not raise HLEN, keeps two such states alike. -/
theorem Engine.sameCall.map (h : e.sameCall f) (g : Engine → Engine)
    (hg : ∀ (x : Engine) (m : Memory), g { x with hbuf := m } = { g x with hbuf := m })
    (hl : ∀ x : Engine, (g x).hlen.toNat ≤ x.hlen.toNat) : (g e).sameCall (g f) := by
  have hbuf : ∀ x, (g x).hbuf = x.hbuf := fun x => (congrArg Engine.hbuf (hg x x.hbuf) :)
  refine ⟨?_, fun k hk => ?_⟩
  · rw [← hg, ← hg, h.1]
  · rw [hbuf, hbuf]; exact h.2 k (lt_of_lt_of_le hk (hl e))

/-- `HRPB` writes the same entry, and makes it one the call has written. -/
theorem Engine.sameCall.takeHrpByte (h : e.sameCall f) (he : e.hbuf.wf = true) (hf : f.hbuf.wf = true) {b : Byte}
    {v : Digit} {m m' : Memory} (hm : e.hbuf.write e.hlen.toNat v = some m)
    (hm' : f.hbuf.write e.hlen.toNat v = some m') : (e.takeHrpByte b m).sameCall (f.takeHrpByte b m') := by
  obtain ⟨hlt, -, hnew, hold⟩ := Memory.write_spec he hm
  obtain ⟨-, -, hnew', hold'⟩ := Memory.write_spec hf hm'
  refine ⟨h.congr (Engine.takeHrpByte · b []) fun _ _ => rfl, fun k hk => ?_⟩
  rw [Engine.takeHrpByte_hlen_toNat b m hlt] at hk
  rw [Engine.takeHrpByte_hbuf, Engine.takeHrpByte_hbuf]
  by_cases hkl : k = e.hlen.toNat
  · rw [hkl, hnew, hnew']
  · rw [hold k hkl, hold' k hkl]; exact h.2 k (by omega)

end SameCall

/-- Two outcomes of a command that answer alike and leave states alike but for entries of HBUF the call has not
written. -/
def Result.Alike : Result → Result → Prop
  | .next r, .next r' => r.rsp = r'.rsp ∧ r.engine.sameCall r'.engine
  | .fault a, .fault b => a = b
  | .refused a, .refused b => a = b
  | _, _ => False

section Alike

variable {e f : Engine}

theorem respond_alike (h : e.sameCall f) {x y : Acc} (hxy : x = y) : Result.Alike (respond e x) (respond f y) :=
  ⟨congrArg okWord hxy, h⟩

theorem raise_alike (h : e.sameCall f) (c : FaultCode) : Result.Alike (raise e c) (raise f c) :=
  ⟨rfl, h.map (Engine.enterFault · c) (fun _ _ => rfl) fun _ => le_rfl⟩

theorem refuse_alike (h : e.sameCall f) : Result.Alike (refuse e) (refuse f) :=
  ⟨congrArg errorWord h.err, h⟩

theorem illegal_alike (h : e.sameCall f) : Result.Alike (illegal e) (illegal f) := by
  unfold illegal
  rw [h.phase]
  split
  · exact refuse_alike h
  · exact raise_alike h _

/-- The tests before a command's own rule do not see HBUF. -/
theorem guarded_alike (i : Instr) (h : e.sameCall f) {body : Engine → Result}
    (hbody : Result.Alike (body e) (body f)) : Result.Alike (guarded i e body) (guarded i f body) := by
  unfold guarded
  rw [h.phase]
  split_ifs
  · exact hbody
  · exact refuse_alike h
  · exact raise_alike h _
  · exact raise_alike h _
  · exact hbody

/-- Outcomes that are alike, put into the machine's state. -/
theorem Result.Alike.commit {r r' : Result} (h : r.Alike r') {s t s' t' : State} (hs : commit s r = .next s')
    (ht : commit t r' = .next t') : s'.rsp = t'.rsp ∧ s'.engine.sameCall t'.engine := by
  obtain ⟨e, w, rfl, rfl⟩ := commit_inv hs
  obtain ⟨e', w', rfl, rfl⟩ := commit_inv ht
  obtain ⟨hw, he⟩ := h
  exact ⟨congrArg some hw, he⟩

end Alike

/-- From states alike but for unwritten entries, an instruction answers alike and leaves such states. -/
theorem exec_alike {i : Instr} {s t s' t' : State} (h : s.engine.sameCall t.engine) (hwf : s.engine.hbuf.wf = true)
    (hwf' : t.engine.hbuf.wf = true) (hs : exec i s = .next s') (ht : exec i t = .next t') :
    s'.rsp = t'.rsp ∧ s'.engine.sameCall t'.engine := by
  have hdigit := fun x => h.map (Engine.takeDigit · x) (fun _ _ => rfl) fun _ => le_rfl
  cases i with
  | nop => exact (guarded_alike .nop h (respond_alike h rfl)).commit hs ht
  | init =>
    have hopen := h.map Engine.openCall (fun _ _ => rfl) fun _ => Nat.zero_le _
    exact (guarded_alike .init h (respond_alike hopen rfl)).commit hs ht
  | rdr n => exact (guarded_alike (.rdr n) h (respond_alike h (h.register n))).commit hs ht
  | wrc v =>
    have hwrite := h.map (Engine.writeCtrl · v) (fun _ _ => rfl) fun _ => le_rfl
    exact (guarded_alike (.wrc v) h (respond_alike hwrite rfl)).commit hs ht
  | rdd k => exact (guarded_alike (.rdd k) h (respond_alike h (by rw [h.d]))).commit hs ht
  | rds k => exact (guarded_alike (.rds k) h (respond_alike h (by rw [h.d]))).commit hs ht
  | csum =>
    have hsum := h.map Engine.sum (fun _ _ => rfl) fun _ => le_rfl
    exact (guarded_alike .csum h (respond_alike hsum (by rw [h.chk]))).commit hs ht
  | s2d c =>
    refine (guarded_alike (.s2d c) h ?_).commit hs ht
    cases s2d c with
    | none => exact raise_alike h _
    | some r => exact respond_alike h rfl
  | d2s d =>
    refine (guarded_alike (.d2s d) h ?_).commit hs ht
    split_ifs
    · exact raise_alike h _
    · exact respond_alike h rfl
  | dig d =>
    refine (guarded_alike (.dig d) h ?_).commit hs ht
    split_ifs
    · exact raise_alike h _
    · exact respond_alike (hdigit _) rfl
  | sym c =>
    refine (guarded_alike (.sym c) h ?_).commit hs ht
    cases s2d c with
    | none => exact raise_alike h _
    | some r => exact respond_alike (hdigit r) rfl
  | vrfy =>
    refine (guarded_alike .vrfy h ?_).commit hs ht
    have hjudge := fun ok => h.map (Engine.judge · ok) (fun _ _ => rfl) fun _ => le_rfl
    rw [h.dcnt, h.chk, h.strict]
    split_ifs
    · exact raise_alike h _
    · exact raise_alike h _
    · exact respond_alike (hjudge _) rfl
  | hrpb b =>
    refine (guarded_alike (.hrpb b) h ?_).commit hs ht
    rw [← h.hlen]
    split_ifs
    · exact raise_alike h _
    · by_cases hk : s.engine.hlen.toNat < Config.hbufSize
      · have hm := Memory.write_of_lt (m := s.engine.hbuf) (lowDigit b) hk
        have hm' := Memory.write_of_lt (m := t.engine.hbuf) (lowDigit b) hk
        rw [hm, hm']
        exact respond_alike (h.takeHrpByte hwf hwf' hm hm') rfl
      · simp only [Memory.write, if_neg hk]; rfl
  | hrpend =>
    refine (guarded_alike .hrpend h ?_).commit hs ht
    rw [h.readFirst, h.hlen]
    split_ifs
    · exact raise_alike h _
    · cases t.engine.hbuf.readFirst t.engine.hlen.toNat with
      | none => rfl
      | some lows =>
        exact respond_alike (h.map (Engine.closeHrp · lows) (fun _ _ => rfl) fun _ => le_rfl) rfl
  | reservedOp14 r => exact (guarded_alike (.reservedOp14 r) h (illegal_alike h)).commit hs ht
  | reservedOp15 r => exact (guarded_alike (.reservedOp15 r) h (illegal_alike h)).commit hs ht

/-- Settles O46: a word executes the same instruction in both states, or is illegal in both. -/
theorem unwrittenBufferIsUnobservable : Obligations.UnwrittenBufferIsUnobservable := by
  intro w s t s' t' hs ht h hrs hrt
  unfold runWord at hrs hrt
  cases hd : decode w with
  | ok i => rw [hd] at hrs hrt; exact exec_alike h hs.hbuf_wf ht.hbuf_wf hrs hrt
  | error why => rw [hd] at hrs hrt; exact (illegal_alike h).commit hrs hrt

end Sys2Proof.Machine

/-! The encoding (spec/30_encoding.md): decoding undoes encoding (R70, R80), `match` and `mask` of the table of R74, the
legal words of R73 and the illegal ones of R75. -/

namespace Sys2Proof

/-! ### Decoding undoes encoding (R70, R80) -/

/-- The low bits of an operand widened to the field `imm` are the operand (R80). -/
@[simp] theorem extractLsb'_setWidth_imm {k : Nat} (hk : k ≤ 8) (n : BitVec k) :
    (n.setWidth 8).extractLsb' 0 k = n := by
  ext j hj
  simp [show j < 8 by omega, hj]

/-- A well-formed term is what its encoding decodes to. -/
theorem decode_encode {i : Instr} (h : i.wf = true) : decode (encode i) = .ok i := by
  cases i with
  | nop | init | hrpend | csum | vrfy => simp [encode, decode, accept]
  | hrpb b | dig b | sym b | s2d b | d2s b => simp [encode, decode, accept]
  | rdd n | rds n =>
    have hn : n.toNat ≤ 5 := by simpa [Instr.wf, digitIndexOk] using h
    simpa [encode, decode, accept] using (Nat.mod_le _ _).trans hn
  | rdr n | wrc n =>
    simpa [encode, decode, accept] using (Nat.mod_le _ _).trans (Nat.le_of_lt_succ n.isLt)
  | reservedOp14 r | reservedOp15 r => simp [encode, decode]

/-- What a word decodes to is the one well-formed term that encodes to it. -/
theorem decode_ok_iff {w : CmdWord} {i : Instr} : decode w = .ok i ↔ i.wf = true ∧ encode i = w := by
  constructor
  · exact fun h => (decode_sound h).symm
  · rintro ⟨hwf, rfl⟩
    exact decode_encode hwf

/-- Settles O26, by the case of the term. -/
theorem decodeUndoesEncode : Obligations.DecodeUndoesEncode := fun _ => decode_encode

/-! ### Legal words (R73) and illegal words (R75) -/

/-- `legal(w)` on the bits of the word is `legal(w)` on its number (R73). -/
theorem legalWord_iff (w : CmdWord) : legalWord w = true ↔ Machine.legalByR73 w.toNat := by
  have hrsv : rsvField w = 0#4 ↔ w.toNat / 256 % 16 = 0 := by
    rw [← BitVec.toNat_inj, rsvField_toNat]; rfl
  simp only [legalWord, Machine.legalByR73, Bool.and_eq_true, Bool.or_eq_true, Bool.not_eq_true', Bool.or_eq_false_iff,
    beq_iff_eq, beq_eq_false_iff_ne, decide_eq_true_eq, hrsv, opField_toNat, immField_toNat, List.mem_cons,
    List.not_mem_nil, or_false]
  omega

/-- The list of R75 is the complement of `legal(w)` (R73). -/
theorem illegalByR75_iff (w : Nat) : Machine.illegalByR75 w ↔ ¬ Machine.legalByR73 w := by
  simp only [Machine.illegalByR75, Machine.legalByR73, List.mem_cons, List.not_mem_nil, or_false]
  omega

/-- `legal(w)` holds of the encoding exactly when the term is a legal command (R73). -/
@[simp] theorem legalWord_encode (i : Instr) : legalWord (encode i) = i.legal := by
  cases i with
  | nop => exact Laws.WordLegality.nop
  | init => exact Laws.WordLegality.init
  | hrpb b => exact Laws.WordLegality.hrpb b
  | hrpend => exact Laws.WordLegality.hrpend
  | dig d => exact Laws.WordLegality.dig d
  | sym c => exact Laws.WordLegality.sym c
  | csum => exact Laws.WordLegality.csum
  | vrfy => exact Laws.WordLegality.vrfy
  | s2d c => exact Laws.WordLegality.s2d c
  | d2s d => exact Laws.WordLegality.d2s d
  | rdd n => exact Laws.WordLegality.rdd n
  | rds n => exact Laws.WordLegality.rds n
  | rdr n => exact Laws.WordLegality.rdr n
  | wrc v => exact Laws.WordLegality.wrc v
  | reservedOp14 r => exact Laws.WordLegality.reservedOp14 r
  | reservedOp15 r => exact Laws.WordLegality.reservedOp15 r

/-- A term is a legal command exactly when the word it was decoded from is legal. -/
theorem legal_of_decode {w : CmdWord} {i : Instr} (h : decode w = .ok i) : i.legal = legalWord w := by
  rw [← (decode_sound h).1, legalWord_encode]

/-- A legal command satisfies the range condition of its row (R73). -/
theorem Instr.wf_of_legal {i : Instr} (h : i.legal = true) : i.wf = true := by
  rw [Instr.legal, Bool.and_eq_true] at h
  exact h.1

/-- Why `accept` rejects a word. -/
theorem accept_error {rsv : BitVec 4} {inRange : Bool} {why e : DecodeError} {i : Instr}
    (h : accept rsv inRange why i = .error e) : rsv ≠ 0#4 ∨ inRange = false := by
  cases inRange with
  | false => exact .inr rfl
  | true => exact .inl fun hrsv => by rw [accept_of why i hrsv rfl] at h; cases h

/-- A word the decoder rejects is not legal. -/
theorem legalWord_of_decode_error {w : CmdWord} {why : DecodeError} (h : decode w = .error why) :
    legalWord w = false := by
  have hzero : (immField w).toNat = 0 ↔ immField w = 0#8 := by rw [← BitVec.toNat_inj]; rfl
  unfold decode at h
  simp only at h
  split at h
  case h_15 | h_16 => cases h
  all_goals
    next hop =>
      rcases accept_error h with hrsv | hrange
      · simp [legalWord, hrsv]
      · -- an operand out of range fails the clause of R73 about its opcode
        simp_all [legalWord]

/-- A legal word decodes to a legal command. -/
theorem decode_of_legalWord {w : CmdWord} (h : legalWord w = true) : ∃ i, decode w = .ok i ∧ i.legal = true := by
  cases hd : decode w with
  | ok i => exact ⟨i, rfl, by rw [legal_of_decode hd, h]⟩
  | error why => rw [legalWord_of_decode_error hd] at h; cases h

/-- Settles O27: a legal word decodes, and a legal command whose encoding it is is what it decodes to. -/
theorem everyWordIsOneCommandOrIllegal : Obligations.EveryWordIsOneCommandOrIllegal := by
  intro w
  rw [illegalByR75_iff, ← legalWord_iff]
  refine ⟨fun hl => ?_, fun hl => ⟨hl, fun i hi => ⟨?_, ?_⟩⟩, id⟩
  · obtain ⟨i, hd, hi⟩ := decode_of_legalWord hl
    refine ⟨i, hd, hi, (decode_sound hd).1, fun j hj hw => ?_⟩
    have hdj : decode w = .ok j := decode_ok_iff.2 ⟨Instr.wf_of_legal hj, hw⟩
    exact Except.ok.inj (hdj.symm.trans hd)
  · intro hd
    exact hl (legal_of_decode hd ▸ hi)
  · rintro rfl
    exact hl (by rw [legalWord_encode, hi])

/-! ### Illegal words executed (R75, R76, R187) -/

namespace Machine

/-- A term that is no legal command, outside phase FAULT (R75). -/
theorem exec_illegal {i : Instr} {s : State} (hl : i.legal = false) (hf : s.engine.phase ≠ .fault) :
    exec i s = .next (s.faulted 6) := by
  obtain ⟨body, hbody⟩ := exec_eq_runCommand i
  rw [hbody, runCommand_illegal hf hl]

/-- A term that is no legal command, in phase FAULT (R75, R187). -/
theorem exec_illegal_fault {i : Instr} {s : State} (hl : i.legal = false) (hf : s.engine.phase = .fault) :
    exec i s = .next s.turnedAway := by
  obtain ⟨body, hbody⟩ := exec_eq_runCommand i
  rw [hbody, runCommand_refused hf (by rw [hl]; rfl)]

/-- An illegal word outside phase FAULT (R75). -/
theorem runWord_illegal {w : CmdWord} {s : State} (hl : legalWord w = false) (hf : s.engine.phase ≠ .fault) :
    runWord w s = .next (s.faulted 6) := by
  rcases runWord_cases w s with ⟨i, hd, hr⟩ | ⟨why, -, hr⟩
  · rw [hr, exec_illegal (legal_of_decode hd ▸ hl) hf]
  · rw [hr, commit_illegal hf]

/-- An illegal word in phase FAULT (R75, R187). -/
theorem runWord_illegal_fault {w : CmdWord} {s : State} (hl : legalWord w = false) (hf : s.engine.phase = .fault) :
    runWord w s = .next s.turnedAway := by
  rcases runWord_cases w s with ⟨i, hd, hr⟩ | ⟨why, -, hr⟩
  · rw [hr, exec_illegal_fault (legal_of_decode hd ▸ hl) hf]
  · rw [hr, commit_illegal_fault hf]

/-- The list of R75, on the bits of the word. -/
theorem illegalByR75_iff_legalWord (w : CmdWord) : illegalByR75 w.toNat ↔ legalWord w = false := by
  rw [illegalByR75_iff, ← legalWord_iff, Bool.not_eq_true]

/-- Settles O35: a word of the list is not legal, so neither the decoder nor `exec` gives it a meaning. -/
theorem illegalWordsFault : Obligations.IllegalWordsFault := by
  simp only [Obligations.IllegalWordsFault, illegalByR75_iff_legalWord]
  exact ⟨fun _ _ => runWord_illegal, fun _ _ => runWord_illegal_fault,
    fun _ hl => decode_of_legalWord (Bool.not_eq_false _ ▸ hl)⟩

/-- Settles O24: a term of a reserved opcode is no legal command. -/
theorem reservedOpcodesAreIllegal : Obligations.ReservedOpcodesAreIllegal :=
  ⟨fun _ _ hf => ⟨exec_illegal rfl hf, exec_illegal rfl hf⟩,
    fun _ _ hf => ⟨exec_illegal_fault rfl hf, exec_illegal_fault rfl hf⟩⟩

end Machine

/-! ### `match` and `mask` (R74) -/

/-- A mask of all bits from `k` on compares the quotient by `2 ^ k`. -/
theorem and_highMask_toNat (w : CmdWord) (k : Nat) :
    (w &&& (BitVec.allOnes 16 <<< k)).toNat = w.toNat / 2 ^ k * 2 ^ k := by
  have hshift : w &&& (BitVec.allOnes 16 <<< k) = (w >>> k) <<< k := by
    ext j hj
    by_cases hkj : j < k
    · simp [hkj]
    · simp [hkj, hj, show k + (j - k) = j by omega, BitVec.getLsbD_eq_getElem,
        -BitVec.reduceAllOnes]
  rw [hshift, BitVec.toNat_shiftLeft, BitVec.toNat_ushiftRight, Nat.shiftRight_eq_div_pow, Nat.shiftLeft_eq]
  exact Nat.mod_eq_of_lt (lt_of_le_of_lt (Nat.div_mul_le_self _ _) w.isLt)

/-- A word meets `match` and `mask` of a row with an operand of `k` bits exactly when it is the command word of the
row's opcode and its own low `k` bits. -/
theorem and_highMask_eq_iff {w : CmdWord} {op : BitVec 4} {k : Nat} (hk : k ≤ 8) :
    w &&& (BitVec.allOnes 16 <<< k) = commandWord op 0 ↔
      w = commandWord op ((BitVec.ofNat k w.toNat).setWidth 8) := by
  have hpow : 2 ^ k ≤ 2 ^ 8 := Nat.pow_le_pow_right (by norm_num) hk
  have hlt : w.toNat % 2 ^ k < 2 ^ k := Nat.mod_lt _ (by positivity)
  have hsplit := Nat.div_add_mod' w.toNat (2 ^ k)
  have himm : ((BitVec.ofNat k w.toNat).setWidth 8).toNat = w.toNat % 2 ^ k := by
    rw [BitVec.toNat_setWidth, BitVec.toNat_ofNat]; omega
  rw [← BitVec.toNat_inj, ← BitVec.toNat_inj, and_highMask_toNat, commandWord_toNat, commandWord_toNat, himm,
    show (0 : Byte).toNat = 0 from rfl]
  omega

/-- The low `k` bits of a command word are its operand of `k` bits. -/
theorem ofNat_commandWord {op : BitVec 4} {k : Nat} (hk : k ≤ 8) (n : BitVec k) :
    BitVec.ofNat k (commandWord op (n.setWidth 8)).toNat = n := by
  have hdvd : 2 ^ k ∣ op.toNat * 4096 := Dvd.dvd.mul_left (pow_dvd_pow 2 (show k ≤ 12 by omega)) _
  have hn : (n.setWidth 8).toNat = n.toNat := BitVec.toNat_setWidth_of_le hk
  apply BitVec.eq_of_toNat_eq
  rw [BitVec.toNat_ofNat, commandWord_toNat, hn, Nat.add_mod, Nat.mod_eq_zero_of_dvd hdvd, Nat.zero_add, Nat.mod_mod,
    Nat.mod_eq_of_lt n.isLt]

/-- The command word of an operand of `k` bits meets `match` and `mask` of its row. -/
theorem commandWord_and_highMask (op : BitVec 4) {k : Nat} (hk : k ≤ 8) (n : BitVec k) :
    commandWord op (n.setWidth 8) &&& (BitVec.allOnes 16 <<< k) = commandWord op 0 := by
  rw [and_highMask_eq_iff hk, ofNat_commandWord hk]

/-- A word that meets `match` and `mask` of the row of a term decodes to the term, when the term's operand is the low
bits of the word. -/
theorem decode_of_and_highMask {w : CmdWord} {op : BitVec 4} {i : Instr} {k : Nat} (hk : k ≤ 8)
    (henc : encode i = commandWord op ((BitVec.ofNat k w.toNat).setWidth 8)) (hwf : i.wf = true)
    (h : w &&& (BitVec.allOnes 16 <<< k) = commandWord op 0) : decode w = .ok i :=
  decode_ok_iff.2 ⟨hwf, henc.trans ((and_highMask_eq_iff hk).1 h).symm⟩

/-- A word that meets `match` and the mask of all bits decodes to the term whose encoding is `match`. -/
theorem decode_of_and_fullMask {w : CmdWord} {i : Instr} (hwf : i.wf = true) (h : w &&& 0xFFFF#16 = encode i) :
    decode w = .ok i :=
  decode_ok_iff.2 ⟨hwf, by rw [← h]; exact BitVec.and_allOnes⟩

/-- `match`, `mask` and the greatest operand of the row of a term (R74). -/
def Instr.maskRow : Instr → CmdWord × CmdWord × Nat
  | .nop => (0x0000#16, 0xFFFF#16, 255)
  | .init => (0x1000#16, 0xFFFF#16, 255)
  | .hrpb _ => (0x2000#16, 0xFF00#16, 255)
  | .hrpend => (0x3000#16, 0xFFFF#16, 255)
  | .dig _ => (0x4000#16, 0xFF00#16, 255)
  | .sym _ => (0x5000#16, 0xFF00#16, 255)
  | .csum => (0x6000#16, 0xFFFF#16, 255)
  | .vrfy => (0x7000#16, 0xFFFF#16, 255)
  | .s2d _ => (0x8000#16, 0xFF00#16, 255)
  | .d2s _ => (0x9000#16, 0xFF00#16, 255)
  | .rdd _ => (0xA000#16, 0xFFF8#16, 5)
  | .rds _ => (0xB000#16, 0xFFF8#16, 5)
  | .rdr _ => (0xC000#16, 0xFFFC#16, 255)
  | .wrc _ => (0xD000#16, 0xFFFE#16, 255)
  | .reservedOp14 _ => (0xE000#16, 0xF000#16, 255)
  | .reservedOp15 _ => (0xF000#16, 0xF000#16, 255)

/-- The encoding of a legal command meets `match` and `mask` of its row. -/
theorem encode_and_mask {i : Instr} (h : i.legal = true) : encode i &&& i.maskRow.2.1 = i.maskRow.1 := by
  cases i with
  | nop | init | hrpend | csum | vrfy => rfl
  | hrpb b | dig b | sym b | s2d b | d2s b => exact commandWord_and_highMask _ (k := 8) le_rfl b
  | rdd n | rds n => exact commandWord_and_highMask _ (k := 3) (by decide) n
  | rdr n => exact commandWord_and_highMask _ (k := 2) (by decide) n
  | wrc v => exact commandWord_and_highMask _ (k := 1) (by decide) v
  | reservedOp14 r | reservedOp15 r => cases h

/-- The operand of a well-formed term is in the range of its row. -/
theorem encode_imm_le {i : Instr} (h : i.wf = true) : (encode i).toNat % 256 ≤ i.maskRow.2.2 := by
  cases i with
  | rdd n | rds n =>
    have hn : n.toNat ≤ 5 := by simpa [Instr.wf, digitIndexOk] using h
    simp only [encode, commandWord_toNat, BitVec.toNat_setWidth_of_le (show 3 ≤ 8 by decide), Instr.maskRow]
    omega
  | nop | init | hrpb b | hrpend | dig d | sym c | csum | vrfy | s2d c | d2s d | rdr n | wrc v | reservedOp14 r
  | reservedOp15 r =>
    exact Nat.le_of_lt_succ (Nat.mod_lt _ (by decide))

/-- Settles O25: a legal command meets the row of its own; a word that meets a row is the row's command word with its own
low bits as operand. -/
theorem maskTableSelectsCommand : Obligations.MaskTableSelectsCommand := by
  refine ⟨fun w i hd hl => ?_, fun w => ?_⟩
  · obtain ⟨rfl, hwf⟩ := decode_sound hd
    refine ⟨i.maskRow, ?_, encode_and_mask hl, encode_imm_le hwf⟩
    cases i with
    | reservedOp14 r | reservedOp15 r => cases hl
    | nop | init | hrpb b | hrpend | dig d | sym c | csum | vrfy | s2d c | d2s d | rdd n | rds n | rdr n | wrc v =>
      simp [Instr.maskRow]
  · have hindex (h5 : w.toNat % 256 ≤ 5) : digitIndexOk (BitVec.ofNat 3 w.toNat) = true := by
      rw [digitIndexOk, decide_eq_true_eq, BitVec.toNat_ofNat]; omega
    exact ⟨decode_of_and_fullMask (i := .nop) rfl,
      decode_of_and_fullMask (i := .init) rfl,
      decode_of_and_highMask (op := 2) (k := 8) (by decide) rfl rfl,
      decode_of_and_fullMask (i := .hrpend) rfl,
      decode_of_and_highMask (op := 4) (k := 8) (by decide) rfl rfl,
      decode_of_and_highMask (op := 5) (k := 8) (by decide) rfl rfl,
      decode_of_and_fullMask (i := .csum) rfl,
      decode_of_and_fullMask (i := .vrfy) rfl,
      decode_of_and_highMask (op := 8) (k := 8) (by decide) rfl rfl,
      decode_of_and_highMask (op := 9) (k := 8) (by decide) rfl rfl,
      fun h h5 => decode_of_and_highMask (op := 10) (k := 3) (by decide) rfl (hindex h5) h,
      fun h h5 => decode_of_and_highMask (op := 11) (k := 3) (by decide) rfl (hindex h5) h,
      decode_of_and_highMask (op := 12) (k := 2) (by decide) rfl rfl,
      decode_of_and_highMask (op := 13) (k := 1) (by decide) rfl rfl⟩

/-! ### The words of R78 -/

/-- Settles O28: each word is the encoding of its term. -/
theorem wordsOfTheSpecDecode : Obligations.WordsOfTheSpecDecode :=
  ⟨decode_encode (i := .hrpb 0x62) rfl, decode_encode (i := .dig 31) rfl, decode_encode (i := .sym 0x71) rfl,
    decode_encode (i := .rdr 2) rfl, decode_encode (i := .csum) rfl, decode_encode (i := .s2d 0x65) rfl,
    decode_encode (i := .rdd 5) rfl, decode_encode (i := .reservedOp14 0) rfl⟩

end Sys2Proof

/-! The alphabet mapper (spec/40_alphabet_mapper.md): the two mapping functions (R90 to R95, R98) and the commands S2D
and D2S (R96, R97). -/

namespace Sys2Proof

/-- The command word of an opcode and an operand, as the number the spec writes (R70). -/
theorem commandWord_eq_ofNat (op : BitVec 4) (imm : Byte) :
    commandWord op imm = BitVec.ofNat 16 (op.toNat * 4096 + imm.toNat) := by
  rw [← commandWord_toNat, BitVec.ofNat_toNat, BitVec.setWidth_eq]

namespace Machine

/-! ### The mapping functions -/

/-- The position found is that of an occurrence of the symbol. -/
theorem getElem?_of_symbolPosition {c : Byte} {xs : List Byte} {i n : Nat} (h : symbolPosition c xs i = some n) :
    i ≤ n ∧ xs[n - i]? = some c := by
  induction xs generalizing i with
  | nil => cases h
  | cons x xs ih =>
    by_cases hx : x = c
    · rw [symbolPosition, if_pos hx] at h
      cases h
      simp [hx]
    · rw [symbolPosition, if_neg hx] at h
      obtain ⟨hle, hget⟩ := ih h
      refine ⟨by omega, ?_⟩
      rw [show n - i = n - (i + 1) + 1 by omega, List.getElem?_cons_succ, hget]

/-- The digit of a symbol is that digit (R93): no symbol stands twice in the alphabet. -/
@[simp] theorem s2d_d2s (d : Digit) : s2d (d2s d) = some d := by
  revert d; decide

/-- The symbol of the digit of a byte is that byte (R93). -/
theorem d2s_of_s2d {c : Byte} {d : Digit} (h : s2d c = some d) : d2s d = c := by
  obtain ⟨n, hn, rfl⟩ := Option.map_eq_some_iff.1 h
  obtain ⟨-, hget⟩ := getElem?_of_symbolPosition hn
  have hlt : n < 32 := (List.getElem?_eq_some_iff.1 hget).1
  rw [d2s, BitVec.toNat_ofNat, Nat.mod_eq_of_lt hlt, List.getD_eq_getElem?_getD]
  exact congrArg (Option.getD · 0) hget

/-- A byte that is the symbol of no digit has no digit (R91). -/
theorem s2d_eq_none {c : Byte} (h : ∀ d : Digit, d2s d ≠ c) : s2d c = none :=
  Option.eq_none_iff_forall_ne_some.2 fun d hd => h d (d2s_of_s2d hd)

/-- Different digits have different symbols (R90). -/
theorem d2s_injective : Function.Injective d2s := fun d e h =>
  Option.some.inj (by rw [← s2d_d2s d, h, s2d_d2s])

/-- Settles O7: the string is compared position by position; a symbol has one digit. -/
theorem alphabetIsTheString : Obligations.AlphabetIsTheString :=
  ⟨by decide, fun _ _ h => d2s_injective h⟩

/-- Settles O8: one law from the alphabet having no symbol twice, the other from the search that finds a position. -/
theorem symbolMapsAreInverse : Obligations.SymbolMapsAreInverse := ⟨s2d_d2s, fun _ _ => d2s_of_s2d⟩

/-- Settles O9, byte by byte over the 256. -/
theorem symbolsAreFiguresAndLowerCaseLetters : Obligations.SymbolsAreFiguresAndLowerCaseLetters := by
  unfold Obligations.SymbolsAreFiguresAndLowerCaseLetters
  decide

/-! ### `S2D` (R96) -/

/-- `S2D` is executed in every phase but FAULT (R164). -/
theorem phaseOk_s2d_iff (c : Byte) (p : Phase) : phaseOk (.s2d c) p = true ↔ p ≠ .fault := bne_iff_ne

/-- `S2D` of a byte that has a digit answers the digit, outside phase FAULT. -/
theorem exec_s2d_of_some {c : Byte} {d : Digit} {s : State} (hf : s.engine.phase ≠ .fault) (h : s2d c = some d) :
    exec (.s2d c) s = .next (s.completes s.engine d.toNat) := by
  rw [exec, execS2d, runCommand_ok rfl ((phaseOk_s2d_iff c _).2 hf), h, commit_respond, zext_toNat (by decide)]

/-- `S2D` of a byte that has no digit faults `InvalidSymbol`, outside phase FAULT. -/
theorem exec_s2d_of_none {c : Byte} {s : State} (hf : s.engine.phase ≠ .fault) (h : s2d c = none) :
    exec (.s2d c) s = .next (s.faulted 2) := by
  rw [exec, execS2d, runCommand_ok rfl ((phaseOk_s2d_iff c _).2 hf), h]
  exact commit_raise s .invalidSymbol

/-- Settles O5: a byte has a digit exactly when it is the symbol of one. -/
theorem s2dAnswersDigitOfSymbol : Obligations.S2dAnswersDigitOfSymbol :=
  ⟨commandWord_eq_ofNat 8, fun d _ hf => exec_s2d_of_some hf (s2d_d2s d),
    fun _ _ hf h => exec_s2d_of_none hf (s2d_eq_none h), fun _ _ hf => runCommand_refused hf rfl⟩

/-! ### `D2S` (R97) -/

/-- `D2S` is executed in every phase but FAULT (R164). -/
theorem phaseOk_d2s_iff (d : Byte) (p : Phase) : phaseOk (.d2s d) p = true ↔ p ≠ .fault := bne_iff_ne

/-- `D2S` of a value up to 31 answers its symbol, outside phase FAULT. -/
theorem exec_d2s_of_le {d : Byte} {s : State} (hf : s.engine.phase ≠ .fault) (h : d.toNat ≤ 31) :
    exec (.d2s d) s = .next (s.completes s.engine (d2s (BitVec.ofNat 5 d.toNat)).toNat) := by
  have hlow : lowDigit d = BitVec.ofNat 5 d.toNat := by rw [lowDigit_eq, Nat.mod_eq_of_lt (by omega)]
  have hvalid : validDigit d = true := decide_eq_true h
  rw [exec, execD2s, runCommand_ok rfl ((phaseOk_d2s_iff d _).2 hf), hvalid, hlow, Bool.not_true,
    if_neg Bool.false_ne_true, commit_respond, zext_toNat (by decide)]

/-- `D2S` of a value above 31 faults `InvalidDigit`, outside phase FAULT. -/
theorem exec_d2s_of_lt {d : Byte} {s : State} (hf : s.engine.phase ≠ .fault) (h : 31 < d.toNat) :
    exec (.d2s d) s = .next (s.faulted 5) := by
  have hvalid : validDigit d = false := decide_eq_false (by omega)
  rw [exec, execD2s, runCommand_ok rfl ((phaseOk_d2s_iff d _).2 hf), hvalid]
  exact commit_raise s .invalidDigit

/-- Settles O6: the whole operand is compared with 31, and up to there its low five bits are its value. -/
theorem d2sAnswersSymbolOfDigit : Obligations.D2sAnswersSymbolOfDigit :=
  ⟨commandWord_eq_ofNat 9, fun _ _ => exec_d2s_of_le, fun _ _ => exec_d2s_of_lt,
    fun _ _ hf => runCommand_refused hf rfl⟩

end Machine

end Sys2Proof

/-! The human-readable part (spec/41_hrp.md): the commands HRPB and HRPEND (R113, R114), the expansion and the validity
of an HRP (R110, R111), and the stream of commands that hands one over (R112, R115). -/

namespace Sys2Proof.Machine

/-! ### `HRPB` (R113) -/

/-- `HRPB` and `HRPEND` are executed in the phases IDLE and HRP alone (R164). -/
theorem phaseOk_hrpb_iff (b : Byte) (p : Phase) : phaseOk (.hrpb b) p = true ↔ p = .idle ∨ p = .hrp := by
  simp [phaseOk]

/-- The row of `HRPEND` in the table of R164 is that of `HRPB`. -/
theorem phaseOk_hrpend_iff (p : Phase) : phaseOk .hrpend p = true ↔ p = .idle ∨ p = .hrp :=
  phaseOk_hrpb_iff 0 p

/-- The test of an HRP byte, on numbers (R111). -/
theorem validHrpByte_iff (b : Byte) : validHrpByte b = true ↔ 33 ≤ b.toNat ∧ b.toNat ≤ 126 := by
  rw [validHrpByte, Bool.and_eq_true, decide_eq_true_eq, decide_eq_true_eq, Config.hrpLo, Config.hrpHi]

/-- A byte out of range, on numbers (R113). -/
theorem validHrpByte_eq_false_iff (b : Byte) : validHrpByte b = false ↔ b.toNat < 33 ∨ 126 < b.toNat := by
  rw [← Bool.not_eq_true, validHrpByte_iff]
  omega

/-- `HRPB` of a byte in range, with room for it in HBUF. -/
theorem exec_hrpb_of_valid {b : Byte} {s : State} {m : Memory} (hp : s.engine.phase = .idle ∨ s.engine.phase = .hrp)
    (hlen : s.engine.hlen.toNat < 83) (hb : validHrpByte b = true)
    (hw : s.engine.hbuf.write s.engine.hlen.toNat (lowDigit b) = some m) :
    exec (.hrpb b) s = .next (s.completes (s.engine.takeHrpByte b m) 0) := by
  have hne : s.engine.hlen.toNat ≠ Config.hrpMax := Nat.ne_of_lt hlen
  rw [exec, execHrpb, runCommand_ok rfl ((phaseOk_hrpb_iff b _).2 hp)]
  simp [hne, hb, hw]

/-- `HRPB` after 83 bytes, or of a byte out of range, faults `InvalidHrp`. -/
theorem exec_hrpb_of_invalid {b : Byte} {s : State} (hp : s.engine.phase = .idle ∨ s.engine.phase = .hrp)
    (h : s.engine.hlen.toNat = 83 ∨ validHrpByte b = false) : exec (.hrpb b) s = .next (s.faulted 1) := by
  have htest : (decide (s.engine.hlen.toNat = Config.hrpMax) || !validHrpByte b) = true := by
    rwa [Bool.or_eq_true, decide_eq_true_eq, Bool.not_eq_true']
  rw [exec, execHrpb, runCommand_ok rfl ((phaseOk_hrpb_iff b _).2 hp), if_pos htest]
  exact commit_raise s .invalidHrp

/-- The phases in which `HRPB` and `HRPEND` fault `PhaseError` are not FAULT, and not those that execute them (R164). -/
theorem not_fault_not_open_of_closed {p : Phase} (hp : p = .data ∨ p = .summed ∨ p = .verified) :
    p ≠ .fault ∧ ¬(p = .idle ∨ p = .hrp) := by
  rcases hp with rfl | rfl | rfl <;> decide

/-- `HRPB` once the HRP is closed (R164). -/
theorem exec_hrpb_of_closed {b : Byte} {s : State}
    (hp : s.engine.phase = .data ∨ s.engine.phase = .summed ∨ s.engine.phase = .verified) :
    exec (.hrpb b) s = .next (s.faulted 7) := by
  obtain ⟨hfault, hopen⟩ := not_fault_not_open_of_closed hp
  exact runCommand_phaseError hfault rfl (by rwa [← Bool.not_eq_true, phaseOk_hrpb_iff])

/-- One more, as the number the spec writes. -/
theorem hlen_add_one (n : BitVec 7) : n + 1#7 = BitVec.ofNat 7 (n.toNat + 1) := by
  rw [BitVec.ofNat_add, BitVec.ofNat_toNat, BitVec.setWidth_eq]

/-- Settles O10: the buffer afterwards is what the write of the low part at HLEN leaves. -/
theorem hrpbTakesOneByte : Obligations.HrpbTakesOneByte := by
  refine ⟨commandWord_eq_ofNat 2, fun b s hp hwf hlen hlo hhi => ?_, fun b s hp h => ?_,
    fun _ _ => exec_hrpb_of_closed, fun _ _ hf => runCommand_refused hf rfl⟩
  · have hw := Memory.write_of_lt (m := s.engine.hbuf) (lowDigit b) hlen
    obtain ⟨-, hm, hnew, hold⟩ := Memory.write_spec hwf hw
    refine ⟨_, hm, fun k => ?_, ?_⟩
    · split
      · next hk => rw [hk, hnew, lowDigit_eq]
      · next hk => exact hold k hk
    · rw [exec_hrpb_of_valid hp hlen ((validHrpByte_iff b).2 ⟨hlo, hhi⟩) hw, Engine.takeHrpByte, highDigit_eq,
        hlen_add_one]
  · exact exec_hrpb_of_invalid hp (by rwa [validHrpByte_eq_false_iff])

/-! ### `HRPEND` (R114) -/

/-- `HRPEND` after at least one byte. -/
theorem exec_hrpend_of_pos {s : State} {lows : List Digit} (hp : s.engine.phase = .idle ∨ s.engine.phase = .hrp)
    (hlen : 0 < s.engine.hlen.toNat) (hr : s.engine.hbuf.readFirst s.engine.hlen.toNat = some lows) :
    exec .hrpend s = .next (s.completes (s.engine.closeHrp lows) 0) := by
  have hne : s.engine.hlen ≠ 0#7 := fun h => by simp [h] at hlen
  rw [exec, execHrpend, runCommand_ok rfl ((phaseOk_hrpend_iff _).2 hp), if_neg hne, hr]
  exact commit_respond s _ 0

/-- `HRPEND` with no byte before it faults `InvalidHrp`. -/
theorem exec_hrpend_of_zero {s : State} (hp : s.engine.phase = .idle ∨ s.engine.phase = .hrp)
    (hlen : s.engine.hlen = 0#7) : exec .hrpend s = .next (s.faulted 1) := by
  rw [exec, execHrpend, runCommand_ok rfl ((phaseOk_hrpend_iff _).2 hp), if_pos hlen]
  exact commit_raise s .invalidHrp

/-- `HRPEND` once the HRP is closed (R164). -/
theorem exec_hrpend_of_closed {s : State}
    (hp : s.engine.phase = .data ∨ s.engine.phase = .summed ∨ s.engine.phase = .verified) :
    exec .hrpend s = .next (s.faulted 7) := by
  obtain ⟨hfault, hopen⟩ := not_fault_not_open_of_closed hp
  exact runCommand_phaseError hfault rfl (by rwa [← Bool.not_eq_true, phaseOk_hrpend_iff])

/-- Settles O11: the digits absorbed after the 0 are the first HLEN entries, which exist up to HLEN 83. -/
theorem hrpendAbsorbsBufferedParts : Obligations.HrpendAbsorbsBufferedParts := by
  refine ⟨rfl, fun s hp hpos hle => ?_, fun _ => exec_hrpend_of_zero, fun _ => exec_hrpend_of_closed,
    fun _ hf => runCommand_refused hf rfl⟩
  obtain ⟨lows, hr⟩ := Memory.readFirst_of_le (m := s.engine.hbuf) hle
  obtain ⟨hlength, hread⟩ := Memory.readFirst_spec hr
  exact ⟨lows, hlength, hread, exec_hrpend_of_pos hp hpos hr⟩

/-! ### `hrpExpand` and `validHrp` (R110, R111) -/

/-- Settles O12: the three parts have `n`, 1 and `n` digits. -/
theorem hrpExpandListsHighZeroLow : Obligations.HrpExpandListsHighZeroLow := by
  intro h
  refine ⟨?_, fun k hk => ?_, ?_, fun k hk => ?_⟩
  · simp only [hrpExpand, List.length_append, List.length_map, List.length_singleton]
    omega
  · rw [hrpExpand, List.append_assoc, List.getElem?_append_left (by simpa using hk), List.getElem?_map,
      funext highDigit_eq]
  · simp [hrpExpand]
  · rw [hrpExpand, List.getElem?_append_right (by simp), List.getElem?_map, funext lowDigit_eq]
    simp

/-- The validity of an HRP, on numbers (R111). -/
theorem validHrp_iff (h : List Byte) :
    validHrp h = true ↔ 1 ≤ h.length ∧ h.length ≤ 83 ∧ ∀ b ∈ h, 33 ≤ b.toNat ∧ b.toNat ≤ 126 := by
  rw [validHrp, Bool.and_eq_true, Bool.and_eq_true, decide_eq_true_eq, decide_eq_true_eq, List.all_eq_true, and_assoc,
    Config.hrpMax]
  simp only [validHrpByte_iff]

/-! ### Programs: one instruction after another -/

/-- Executing the word of a well-formed instruction is executing the instruction. -/
theorem runWord_encode {i : Instr} (hwf : i.wf = true) (s : State) : runWord (encode i) s = exec i s := by
  rw [runWord, decode_encode hwf]

/-- A program whose first instruction answers a next state goes on from there. -/
theorem runWords_encode_cons {i : Instr} {is : List Instr} {s t : State} (hwf : i.wf = true)
    (h : exec i s.transfer = .next t) : runWords ((i :: is).map encode) s = runWords (is.map encode) t := by
  rw [List.map_cons, runWords, runWord_encode hwf, h]

/-- A program whose first part runs to a next state goes on from there. -/
theorem runWords_encode_append {is js : List Instr} {s t : State} (h : runWords (is.map encode) s = .next t) :
    runWords ((is ++ js).map encode) s = runWords (js.map encode) t := by
  rw [List.map_append, runWords_append, h]

/-- Phase FAULT turns away every instruction but the four of R187. -/
theorem exec_refused {i : Instr} {s : State} (hf : s.engine.phase = .fault)
    (h : (i.legal && phaseOk i .fault) = false) : exec i s = .next s.turnedAway := by
  obtain ⟨body, hbody⟩ := exec_eq_runCommand i
  rw [hbody, runCommand_refused hf h]

/-- A program of such instructions leaves the state of a fault as it is. -/
theorem runWords_refused {is : List Instr} {s : State} (hf : s.engine.phase = .fault)
    (h : ∀ i ∈ is, i.wf = true ∧ (i.legal && phaseOk i .fault) = false) :
    ∃ t, runWords (is.map encode) s = .next t ∧ t.engine = s.engine := by
  induction is generalizing s with
  | nil => exact ⟨s, rfl, rfl⟩
  | cons i is ih =>
    obtain ⟨⟨hwf, hi⟩, his⟩ := List.forall_mem_cons.1 h
    have hs : s.transfer.turnedAway.engine = s.engine := s.transfer_engine
    rw [runWords_encode_cons hwf (exec_refused (by simpa using hf) hi), ← hs]
    exact ih (by rwa [hs]) his

/-! ### The stream of an HRP (R112, R115) -/

/-- The call is open and the bytes `p`, all it was given so far, were accepted (R112, R113). -/
structure Engine.Streamed (e : Engine) (p : List Byte) : Prop where
  phase : e.phase = .idle ∨ e.phase = .hrp
  err : e.err = 0#4
  chk : e.chk = polymod (p.map highDigit)
  hlen : e.hlen.toNat = p.length
  hbuf_wf : e.hbuf.wf = true
  lows : e.hbuf.readFirst p.length = some (p.map lowDigit)
  length_le : p.length ≤ 83
  bytes : ∀ b ∈ p, validHrpByte b = true

/-- The HRP `h` was accepted and closed (R115). -/
structure Engine.HrpClosed (e : Engine) (h : List Byte) : Prop where
  phase : e.phase = .data
  err : e.err = 0#4
  chk : e.chk = polymod (hrpExpand h)
  hlen : e.hlen.toNat = h.length
  dcnt : e.dcnt = 0#3

/-- The call faulted `InvalidHrp` (R181, R186). -/
def Engine.HrpRejected (e : Engine) : Prop := e.phase = .fault ∧ e.err = 1#4

/-- A fault of code 1 rejects the HRP. -/
theorem State.faulted_hrpRejected (s : State) : (s.faulted 1).engine.HrpRejected := ⟨rfl, rfl⟩

/-- `polymod` goes on where it stopped (R131). -/
theorem polymod_append (us vs : List Digit) : polymod (us ++ vs) = absorbAll (polymod us) vs :=
  absorbAll_append _ us vs

/-- Writing entry `n` adds it to the first `n`. -/
theorem Memory.readFirst_write {m m' : Memory} {n : Nat} {v : Digit} {vs : List Digit} (hm : m.wf = true)
    (hw : m.write n v = some m') (hr : m.readFirst n = some vs) : m'.readFirst (n + 1) = some (vs ++ [v]) := by
  obtain ⟨-, -, hnew, hold⟩ := Memory.write_spec hm hw
  rw [Memory.readFirst, Memory.readFirst_congr fun k hk => hold k (Nat.ne_of_lt hk), hr, hnew]

section Stream

variable {e : Engine} {s : State} {p : List Byte} {b : Byte}

/-- A fresh call was given no byte yet. -/
theorem Engine.Streamed.of_fresh (h : e.fresh) (hm : e.hbuf.wf = true) : e.Streamed [] := by
  obtain ⟨hchk, -, hphase, herr, -, hhlen, -⟩ := h
  exact ⟨.inl hphase, herr, hchk, by rw [hhlen]; rfl, hm, rfl, Nat.zero_le _, by simp⟩

/-- One more byte accepted. -/
theorem Engine.Streamed.takeHrpByte (h : e.Streamed p) (hlen : p.length < 83) (hb : validHrpByte b = true) {m : Memory}
    (hw : e.hbuf.write e.hlen.toNat (lowDigit b) = some m) : (e.takeHrpByte b m).Streamed (p ++ [b]) where
  phase := .inr rfl
  err := h.err
  chk := by rw [Engine.takeHrpByte_chk, h.chk, List.map_append, polymod_append]; rfl
  hlen := by
    rw [Engine.takeHrpByte_hlen_toNat b m (by rwa [h.hlen]), h.hlen, List.length_append, List.length_singleton]
  hbuf_wf := (Memory.write_spec h.hbuf_wf hw).2.1
  lows := by
    rw [h.hlen] at hw
    simpa using Memory.readFirst_write h.hbuf_wf hw h.lows
  length_le := by simpa using hlen
  bytes := by simpa [or_imp, forall_and] using ⟨h.bytes, hb⟩

/-- `HRPB` of a byte in range, with fewer than 83 before it. -/
theorem exec_hrpb_streamed (h : s.engine.Streamed p) (hlen : p.length < 83) (hb : validHrpByte b = true) :
    ∃ t, exec (.hrpb b) s = .next t ∧ t.engine.Streamed (p ++ [b]) := by
  have hlt : s.engine.hlen.toNat < 83 := by rwa [h.hlen]
  have hw := Memory.write_of_lt (m := s.engine.hbuf) (lowDigit b) hlt
  exact ⟨_, exec_hrpb_of_valid h.phase hlt hb hw, h.takeHrpByte hlen hb hw⟩

/-- The 84th byte and a byte out of range fault `InvalidHrp` (R112). -/
theorem exec_hrpb_rejected (h : s.engine.Streamed p) (hb : p.length = 83 ∨ validHrpByte b = false) :
    exec (.hrpb b) s = .next (s.faulted 1) :=
  exec_hrpb_of_invalid h.phase (by rwa [h.hlen])

/-- `HRPEND` after at least one byte leaves CHK the `polymod` of the expansion (R115). -/
theorem exec_hrpend_streamed (h : s.engine.Streamed p) (hp : p ≠ []) :
    ∃ t, exec .hrpend s = .next t ∧ t.engine.HrpClosed p := by
  have hpos : 0 < s.engine.hlen.toNat := by rw [h.hlen]; exact List.length_pos_iff.2 hp
  refine ⟨_, exec_hrpend_of_pos h.phase hpos (by rw [h.hlen]; exact h.lows), rfl, h.err, ?_, h.hlen, rfl⟩
  change absorbAll (absorb s.engine.chk 0) (p.map lowDigit) = polymod (hrpExpand p)
  rw [h.chk, hrpExpand, polymod_append, polymod_append]
  rfl

/-- A stream whose bytes were accepted is a valid HRP unless it is empty (R111). -/
theorem Engine.Streamed.valid_iff (h : e.Streamed p) : validHrp p = true ↔ p ≠ [] := by
  rw [← List.length_pos_iff, validHrp_iff]
  exact ⟨fun hv => hv.1, fun hp => ⟨hp, h.length_le, fun b hb => (validHrpByte_iff b).1 (h.bytes b hb)⟩⟩

/-- Bytes in range are accepted as long as they are at most 83. -/
theorem runWords_hrpb {h : List Byte} (hs : s.engine.Streamed p) (hlen : p.length + h.length ≤ 83)
    (hh : ∀ b ∈ h, validHrpByte b = true) :
    ∃ t, runWords ((h.map Instr.hrpb).map encode) s = .next t ∧ t.engine.Streamed (p ++ h) := by
  induction h generalizing p s with
  | nil => exact ⟨s, rfl, by rwa [List.append_nil]⟩
  | cons b h ih =>
    obtain ⟨hb, hh⟩ := List.forall_mem_cons.1 hh
    rw [List.length_cons] at hlen
    obtain ⟨t, ht, hstream⟩ := exec_hrpb_streamed (s := s.transfer) (b := b) (by simpa using hs) (by omega) hb
    rw [List.map_cons, runWords_encode_cons rfl ht, List.append_cons]
    exact ih hstream (by simp; omega) hh

/-- The program of an HRP hands over its first byte first (R79). -/
theorem hrpProgram_cons (b : Byte) (h : List Byte) : hrpProgram (b :: h) = .hrpb b :: hrpProgram h := rfl

/-- A program that hands over an HRP is turned away in phase FAULT. -/
theorem runWords_hrpProgram_refused (h : List Byte) (hf : s.engine.phase = .fault) :
    ∃ t, runWords ((hrpProgram h).map encode) s = .next t ∧ t.engine = s.engine := by
  refine runWords_refused hf fun i hi => ?_
  rw [hrpProgram, List.mem_append, List.mem_map, List.mem_singleton] at hi
  rcases hi with ⟨b, -, rfl⟩ | rfl <;> exact ⟨rfl, rfl⟩

/-- A stream with a byte that is not acceptable after those before it is no valid HRP (R111). -/
theorem validHrp_append_cons_eq_false {h : List Byte} (hb : p.length = 83 ∨ validHrpByte b = false) :
    validHrp (p ++ b :: h) = false := by
  rw [← Bool.not_eq_true, validHrp_iff]
  rintro ⟨-, hle, hbytes⟩
  rw [List.length_append, List.length_cons] at hle
  rcases hb with hlen | hb
  · omega
  · have hvalid := (validHrpByte_iff b).2 (hbytes b (by simp))
    rw [hb] at hvalid
    cases hvalid

/-- The rest of a stream and its `HRPEND`: the HRP is closed if it is valid as a whole, else rejected (R112). -/
theorem runWords_hrpProgram (h : List Byte) (hs : s.engine.Streamed p) :
    ∃ t, runWords ((hrpProgram h).map encode) s = .next t ∧ (validHrp (p ++ h) = true → t.engine.HrpClosed (p ++ h)) ∧
      (validHrp (p ++ h) = false → t.engine.HrpRejected) := by
  have hs' : s.transfer.engine.Streamed p := by simpa using hs
  induction h generalizing p s with
  | nil =>
    rw [List.append_nil]
    by_cases hp : p = []
    · have hzero : s.transfer.engine.hlen = 0#7 := BitVec.eq_of_toNat_eq (by rw [hs'.hlen, hp]; rfl)
      refine ⟨_, runWords_encode_cons rfl (exec_hrpend_of_zero hs'.phase hzero), fun hv => ?_,
        fun _ => State.faulted_hrpRejected _⟩
      exact (hs.valid_iff.1 hv hp).elim
    · obtain ⟨t, ht, hclosed⟩ := exec_hrpend_streamed hs' hp
      refine ⟨t, runWords_encode_cons rfl ht, fun _ => hclosed, fun hv => ?_⟩
      rw [hs.valid_iff.2 hp] at hv
      cases hv
  | cons b h ih =>
    by_cases hbad : p.length = 83 ∨ validHrpByte b = false
    · obtain ⟨t, ht, heq⟩ := runWords_hrpProgram_refused (s := s.transfer.faulted 1) h rfl
      refine ⟨t, (runWords_encode_cons rfl (exec_hrpb_rejected hs' hbad)).trans ht, fun hv => ?_, fun _ => ?_⟩
      · rw [validHrp_append_cons_eq_false hbad] at hv
        cases hv
      · rw [heq]
        exact State.faulted_hrpRejected _
    · rw [not_or, Bool.not_eq_false] at hbad
      obtain ⟨hne, hb⟩ := hbad
      obtain ⟨t, ht, hstream⟩ := exec_hrpb_streamed hs' (lt_of_le_of_ne hs.length_le hne) hb
      rw [List.append_cons, hrpProgram_cons, runWords_encode_cons rfl ht]
      exact ih hstream (by simpa using hstream)

end Stream

/-! ### Loaded programs of a fresh call -/

/-- An HRP of `n` bytes is handed over by `n + 1` commands (R79). -/
@[simp] theorem length_hrpProgram (h : List Byte) : (hrpProgram h).length = h.length + 1 := by
  simp [hrpProgram]

/-- A loaded program of known length runs as its words do. -/
theorem run_load_of_length {is : List Instr} {n : Nat} (hn : is.length = n) (s : State) :
    Host.Core.run core n (s.load is) = runWords (is.map encode) s := by
  rw [← hn, run_load]

/-- From a fresh call, an HRP is closed if it is valid, else rejected. -/
theorem run_hrpProgram (h : List Byte) {s : State} (hs : s.engine.fresh) (hm : s.engine.hbuf.wf = true) :
    ∃ t : State, Host.Core.run core (h.length + 1) (s.load (hrpProgram h)) = .next t ∧
      (validHrp h = true → t.engine.HrpClosed h) ∧ (validHrp h = false → t.engine.HrpRejected) := by
  rw [run_load_of_length (length_hrpProgram h)]
  exact runWords_hrpProgram h (.of_fresh hs hm)

/-- From a fresh call, up to 83 bytes in range are accepted. -/
theorem run_hrpb {h : List Byte} {n : Nat} (hn : h.length = n) {s : State} (hs : s.engine.fresh)
    (hm : s.engine.hbuf.wf = true) (hlen : h.length ≤ 83) (hh : ∀ b ∈ h, 33 ≤ b.toNat ∧ b.toNat ≤ 126) :
    ∃ t : State, Host.Core.run core n (s.load (h.map Instr.hrpb)) = .next t ∧ t.engine.Streamed h := by
  rw [run_load_of_length (by rwa [List.length_map])]
  exact runWords_hrpb (.of_fresh hs hm) (by simpa using hlen) fun b hb => (validHrpByte_iff b).2 (hh b hb)

/-- A stream of accepted bytes has not faulted. -/
theorem Engine.Streamed.phase_ne_fault {e : Engine} {p : List Byte} (h : e.Streamed p) : e.phase ≠ .fault := by
  rcases h.phase with hp | hp <;> rw [hp] <;> decide

/-- From a fresh call, the first byte that is not acceptable faults at once. -/
theorem run_hrpb_rejected {h : List Byte} {b : Byte} {s : State} (hs : s.engine.fresh) (hm : s.engine.hbuf.wf = true)
    (hlen : h.length ≤ 83) (hh : ∀ c ∈ h, 33 ≤ c.toNat ∧ c.toNat ≤ 126)
    (hb : h.length = 83 ∨ b.toNat < 33 ∨ 126 < b.toNat) :
    ∃ t : State, Host.Core.run core (h.length + 1) (s.load (h.map Instr.hrpb ++ [.hrpb b])) = .next t ∧
      t.engine.HrpRejected := by
  rw [← validHrpByte_eq_false_iff] at hb
  obtain ⟨t, ht, hstream⟩ := run_hrpb rfl hs hm hlen hh
  rw [run_load_of_length (List.length_map _)] at ht
  have hstream' : t.transfer.engine.Streamed h := by simpa using hstream
  rw [run_load_of_length (by simp), runWords_encode_append ht, runWords_encode_cons rfl (exec_hrpb_rejected hstream' hb)]
  exact ⟨_, rfl, State.faulted_hrpRejected _⟩

/-- From a fresh call, an `HRPEND` with no byte before it faults at once. -/
theorem run_hrpend_rejected {s : State} (hs : s.engine.fresh) :
    ∃ t : State, Host.Core.run core 1 (s.load [.hrpend]) = .next t ∧ t.engine.HrpRejected := by
  obtain ⟨-, -, hphase, -, -, hhlen, -⟩ := hs
  have hexec : exec .hrpend s.transfer = .next (s.transfer.faulted 1) :=
    exec_hrpend_of_zero (.inl (by simpa using hphase)) (by simpa using hhlen)
  rw [run_load_of_length (n := 1) rfl, runWords_encode_cons rfl hexec]
  exact ⟨_, rfl, State.faulted_hrpRejected _⟩

/-- Settles O13, by the induction over the stream. -/
theorem hrpStreamFaultsExactlyWhenInvalid : Obligations.HrpStreamFaultsExactlyWhenInvalid := by
  refine ⟨validHrp_iff, fun h s hs hm => ?_, fun h s hs hm hlen hh => ?_,
    fun h b s hs hm hlen hh hb => run_hrpb_rejected hs hm hlen hh hb, fun s hs => run_hrpend_rejected hs⟩
  · obtain ⟨t, ht, hclosed, hrejected⟩ := run_hrpProgram h hs hm
    exact ⟨t, ht, fun hv => ⟨(hclosed hv).phase, (hclosed hv).err⟩, hrejected⟩
  · obtain ⟨t, ht, hstream⟩ := run_hrpb rfl hs hm hlen hh
    exact ⟨t, ht, hstream.phase_ne_fault⟩

/-- Settles O14: what closing a valid HRP leaves, and what its first `k` bytes leave before that. -/
theorem hrpCallLeavesPolymodOfExpansion : Obligations.HrpCallLeavesPolymodOfExpansion := by
  refine ⟨fun h s hs hm hv => ?_, fun h k s hs hm hv hk => ?_⟩
  · obtain ⟨t, ht, hclosed, -⟩ := run_hrpProgram h hs hm
    obtain ⟨hphase, -, hchk, hhlen, hdcnt⟩ := hclosed hv
    exact ⟨t, ht, hchk, hhlen, hdcnt, hphase⟩
  · obtain ⟨-, hlen, hh⟩ := (validHrp_iff h).1 hv
    have htake : (h.take k).length = k := List.length_take_of_le hk
    obtain ⟨t, ht, hstream⟩ := run_hrpb htake hs hm (by omega) fun b hb => hh b (List.mem_of_mem_take hb)
    refine ⟨t, ht, hstream.phase_ne_fault, ?_⟩
    rw [hstream.chk, funext highDigit_eq]

end Sys2Proof.Machine

/-! The arithmetic laws of the checksum (spec/42_checksum.md R130 to R136): `absorb` on numbers, its linearity and its
bijectivity, and what they say of `polymod`, `createChecksum` and `verifyChecksum`. -/

namespace Sys2Proof.Machine

/-! ### `absorb` on numbers (R130) -/

/-- A generator constant selected by a bit of bits 29:25, on numbers. -/
theorem selected_toNat (chk : Acc) (i : Fin 5) :
    (selected (chk.extractLsb' 25 5) i).toNat =
      if (chk.toNat / 2 ^ 25).testBit i then (Config.gen i).toNat else 0 := by
  have hbit : (chk.extractLsb' 25 5).getLsbD i = (chk.toNat / 2 ^ 25).testBit i := by
    rw [BitVec.getLsbD_extractLsb', decide_eq_true i.isLt, Bool.true_and, BitVec.getLsbD, Nat.testBit_div_two_pow,
      Nat.add_comm]
  rw [selected, hbit]
  split <;> rfl

/-- The shifted part loses no bit: bits 29:25 are masked out first. -/
theorem shifted_toNat (chk : Acc) :
    ((chk &&& 0x1ffffff#30) <<< 5).toNat = (chk.toNat &&& 0x1ffffff) <<< 5 := by
  have hlt : (chk.toNat &&& 0x1ffffff) <<< 5 < 2 ^ 30 := by
    have hle : chk.toNat &&& 0x1ffffff ≤ 0x1ffffff := Nat.and_le_right
    rw [Nat.shiftLeft_eq]
    omega
  rw [BitVec.toNat_shiftLeft, BitVec.toNat_and]
  exact Nat.mod_eq_of_lt hlt

/-- Settles O15, term by term of the exclusive OR. -/
theorem absorbOnNumbers : Obligations.AbsorbOnNumbers := by
  intro chk v
  simp only [absorb, feedback, BitVec.toNat_xor, shifted_toNat, zext_toNat (show 5 ≤ 30 by decide), selected_toNat,
    Nat.xor_assoc]
  rfl

/-! ### Linearity (R135) -/

/-- The digit 0, widened (R9). -/
theorem zext_zero : (0 : Digit).setWidth 30 = 0#30 := rfl

/-- The digit enters by exclusive OR alone. -/
theorem absorb_eq_absorb_zero_xor (chk : Acc) (v : Digit) : absorb chk v = absorb chk 0 ^^^ v.setWidth 30 := by
  rw [absorb, absorb, zext_zero, BitVec.xor_zero, BitVec.xor_assoc, BitVec.xor_assoc, BitVec.xor_comm (v.setWidth 30)]

/-- The constant that a bit selects is linear in the bits. -/
theorem selected_xor (a b : Digit) (i : Fin 5) : selected (a ^^^ b) i = selected a i ^^^ selected b i := by
  simp only [selected, BitVec.getLsbD_xor]
  cases a.getLsbD i <;> cases b.getLsbD i <;> simp

/-- So is the exclusive OR of all that are selected. -/
theorem feedback_xor (a b : Digit) : feedback (a ^^^ b) = feedback a ^^^ feedback b := by
  simp only [feedback, selected_xor]
  ac_rfl

/-- Masking is linear. -/
theorem xor_and_mask {n : Nat} (x y m : BitVec n) : (x ^^^ y) &&& m = (x &&& m) ^^^ (y &&& m) := by
  ext j hj
  simp [Bool.and_xor_distrib_right]

/-- The step is linear in the accumulator. -/
theorem absorb_xor_zero (x y : Acc) : absorb (x ^^^ y) 0 = absorb x 0 ^^^ absorb y 0 := by
  simp only [absorb, xor_and_mask, BitVec.shiftLeft_xor_distrib, BitVec.extractLsb'_xor, feedback_xor, zext_zero,
    BitVec.xor_zero]
  ac_rfl

/-- A sum of accumulators may be absorbed into apart, the digits entering one of the two. -/
theorem absorb_xor (x y : Acc) (v : Digit) : absorb (x ^^^ y) v = absorb x 0 ^^^ absorb y v := by
  rw [absorb_eq_absorb_zero_xor, absorb_xor_zero, BitVec.xor_assoc, ← absorb_eq_absorb_zero_xor]

/-- The same for a sequence of digits. -/
theorem absorbAll_xor (x y : Acc) (vs : List Digit) :
    absorbAll (x ^^^ y) vs = absorbAll x (List.replicate vs.length 0) ^^^ absorbAll y vs := by
  induction vs generalizing x y with
  | nil => rfl
  | cons v vs ih =>
    rw [List.length_cons, List.replicate_succ, absorbAll_cons, absorbAll_cons, absorbAll_cons, absorb_xor, ih]

/-- Digits enter by what they give from the accumulator 0. -/
theorem absorbAll_eq_zeros_xor (c : Acc) (vs : List Digit) :
    absorbAll c vs = absorbAll c (List.replicate vs.length 0) ^^^ absorbAll 0#30 vs := by
  rw [← absorbAll_xor, BitVec.xor_zero]

/-! ### The last six digits (R135) -/

/-- Bits put into the place of zeros by exclusive OR are added. -/
theorem shiftLeft_xor_of_lt {v n : Nat} (a : Nat) (h : v < 2 ^ n) : a <<< n ^^^ v = a * 2 ^ n + v := by
  have hpos : 0 < 2 ^ n := Nat.two_pow_pos n
  rw [← Nat.div_add_mod (a <<< n ^^^ v) (2 ^ n), Nat.xor_div_two_pow, Nat.xor_mod_two_pow, Nat.shiftLeft_eq,
    Nat.mul_div_cancel a hpos, Nat.mul_mod_left, Nat.div_eq_of_lt h, Nat.mod_eq_of_lt h, Nat.xor_zero, Nat.zero_xor,
    Nat.mul_comm]

/-- With bits 29:25 zero no constant is selected: the step appends the digit. -/
theorem absorb_toNat_of_lt {chk : Acc} (h : chk.toNat < 2 ^ 25) (v : Digit) :
    (absorb chk v).toNat = chk.toNat * 2 ^ 5 + v.toNat := by
  have htop : chk.extractLsb' 25 5 = 0#5 := by
    apply BitVec.eq_of_toNat_eq
    rw [field_toNat, Nat.div_eq_of_lt h]
    rfl
  have hmask : chk.toNat &&& 0x1ffffff = chk.toNat := by
    rw [show 0x1ffffff = 2 ^ 25 - 1 from rfl, Nat.and_two_pow_sub_one_eq_mod, Nat.mod_eq_of_lt h]
  have hfeedback : feedback 0#5 = 0#30 := by decide
  rw [absorb, htop, hfeedback, BitVec.xor_zero, BitVec.toNat_xor, shifted_toNat, hmask,
    zext_toNat (by decide), shiftLeft_xor_of_lt _ v.isLt]

/-- Six digits absorbed from 0 stand side by side, the first in bits 29:25. -/
theorem absorbAll_zero_six_toNat (c0 c1 c2 c3 c4 c5 : Digit) :
    (absorbAll 0#30 [c0, c1, c2, c3, c4, c5]).toNat =
      c0.toNat * 2 ^ 25 + c1.toNat * 2 ^ 20 + c2.toNat * 2 ^ 15 + c3.toNat * 2 ^ 10 + c4.toNat * 2 ^ 5 +
        c5.toNat := by
  have h0 : (absorb 0#30 c0).toNat = c0.toNat := by
    rw [absorb_toNat_of_lt (by decide)]; simp
  have h1 := absorb_toNat_of_lt (chk := absorb 0#30 c0) (by omega) c1
  have h2 := absorb_toNat_of_lt (chk := absorb (absorb 0#30 c0) c1) (by omega) c2
  have h3 := absorb_toNat_of_lt (chk := absorb (absorb (absorb 0#30 c0) c1) c2) (by omega) c3
  have h4 := absorb_toNat_of_lt (chk := absorb (absorb (absorb (absorb 0#30 c0) c1) c2) c3) (by omega) c4
  have h5 := absorb_toNat_of_lt (chk := absorb (absorb (absorb (absorb (absorb 0#30 c0) c1) c2) c3) c4) (by omega) c5
  simp only [absorbAll_cons, absorbAll_nil]
  omega

/-- The six fields of a value, absorbed from 0, give the value. -/
theorem absorbAll_zero_ofPacked (t : Acc) : absorbAll 0#30 (Digits.ofPacked t).toList = t := by
  apply BitVec.eq_of_toNat_eq
  have ht := t.isLt
  simp only [Digits.toList, Digits.ofPacked, absorbAll_zero_six_toNat, field_toNat]
  omega

/-- The data of an HRP and its digits, followed by the created checksum, has the residue 1. -/
theorem polymod_createChecksum (h : List Byte) (ds : List Digit) :
    polymod (hrpExpand h ++ ds ++ (createChecksum h ds).toList) = 1#30 := by
  have hlen : (createChecksum h ds).toList.length = Config.csumLen := rfl
  rw [polymod_append, absorbAll_eq_zeros_xor, hlen, ← polymod_append, createChecksum, absorbAll_zero_ofPacked,
    ← BitVec.xor_assoc, BitVec.xor_self, BitVec.zero_xor]
  rfl

/-- `verifyChecksum` asks for the residue 1 (R133). -/
theorem verifyChecksum_iff (h : List Byte) (ds : List Digit) :
    verifyChecksum h ds = true ↔ polymod (hrpExpand h ++ ds) = 1#30 := beq_iff_eq

/-- A message with its created checksum verifies (R135). -/
theorem verifyChecksum_createChecksum (h : List Byte) (ds : List Digit) :
    verifyChecksum h (ds ++ (createChecksum h ds).toList) = true := by
  rw [verifyChecksum_iff, ← List.append_assoc, polymod_createChecksum]

/-- Settles O16: the last six digits are split off by linearity, and no constant is selected for them. -/
theorem createdChecksumVerifies : Obligations.CreatedChecksumVerifies := by
  refine ⟨absorb_eq_absorb_zero_xor, absorb_xor_zero, fun m c0 c1 c2 c3 c4 c5 => ?_, polymod_createChecksum,
    verifyChecksum_createChecksum⟩
  rw [polymod_append, polymod_append, absorbAll_eq_zeros_xor, BitVec.toNat_xor, absorbAll_zero_six_toNat]
  rfl

/-! ### Bijectivity (R136) -/

/-- The low fields of the five constants are independent: they cancel for no choice but none. -/
theorem eq_zero_of_feedback_low {b : Digit} (h : (feedback b).setWidth 5 = 0#5) : b = 0#5 := by
  revert b; decide

/-- The step sends no accumulator but 0 to 0. -/
theorem eq_zero_of_absorb_zero {z : Acc} (h : absorb z 0 = 0#30) : z = 0#30 := by
  have hlow : (feedback (z.extractLsb' 25 5)).setWidth 5 = 0#5 := by
    rw [absorb, zext_zero, BitVec.xor_zero, BitVec.xor_eq_zero_iff] at h
    rw [← h]
    ext j hj
    simp
  have htop : z.toNat / 2 ^ 25 % 2 ^ 5 = 0 := by rw [← field_toNat, eq_zero_of_feedback_low hlow]; rfl
  have hlt : z.toNat < 2 ^ 25 := by have := z.isLt; omega
  have happend : (0#30).toNat = z.toNat * 2 ^ 5 + 0 := by rw [← h]; exact absorb_toNat_of_lt hlt 0
  exact BitVec.eq_of_toNat_eq (show z.toNat = 0 by rw [BitVec.toNat_zero] at happend; omega)

/-- For a fixed digit the step is injective in the accumulator. -/
theorem absorb_injective (v : Digit) : Function.Injective fun chk : Acc => absorb chk v := by
  intro x y h
  have hkernel : absorb (x ^^^ y) 0 = 0#30 := by
    simp only [absorb_eq_absorb_zero_xor _ v, BitVec.xor_left_inj] at h
    rw [absorb_xor_zero, h, BitVec.xor_self]
  exact BitVec.xor_eq_zero_iff.1 (eq_zero_of_absorb_zero hkernel)

/-- For a fixed accumulator it is injective in the digit. -/
theorem absorb_digit_injective (chk : Acc) : Function.Injective fun v : Digit => absorb chk v := by
  intro a b h
  simp only [absorb_eq_absorb_zero_xor chk a, absorb_eq_absorb_zero_xor chk b, BitVec.xor_right_inj] at h
  apply BitVec.eq_of_toNat_eq
  rw [← zext_toNat (show 5 ≤ 30 by decide) a, h, zext_toNat (by decide)]

/-- A sequence of steps is injective in the accumulator. -/
theorem absorbAll_injective (vs : List Digit) : Function.Injective fun chk : Acc => absorbAll chk vs := by
  induction vs with
  | nil => exact Function.injective_id
  | cons v vs ih => exact ih.comp (absorb_injective v)

/-- Two sequences that differ in one digit have different residues. -/
theorem polymod_ne_of_digit_ne (us vs : List Digit) {a b : Digit} (hab : a ≠ b) :
    polymod (us ++ [a] ++ vs) ≠ polymod (us ++ [b] ++ vs) := by
  simp only [polymod_append, absorbAll_cons, absorbAll_nil]
  exact (absorbAll_injective vs).ne ((absorb_digit_injective (polymod us)).ne hab)

/-- Settles O17: an injective step on finitely many accumulators is a bijection, and an injective step keeps two
residues apart. -/
theorem oneChangedDigitIsDetected : Obligations.OneChangedDigitIsDetected := by
  refine ⟨fun v => (absorb_injective v).bijective_of_finite, absorb_digit_injective,
    fun us vs a b => polymod_ne_of_digit_ne us vs, fun h us vs a b hab ha => ?_⟩
  have hne := polymod_ne_of_digit_ne (hrpExpand h ++ us) vs hab
  rw [verifyChecksum_iff] at ha
  rw [← Bool.not_eq_true, verifyChecksum_iff]
  simp only [List.append_assoc] at hne ha ⊢
  rw [ha] at hne
  exact hne.symm

end Sys2Proof.Machine

/-! The commands of the checksum (spec/42_checksum.md R137 to R142): what each answers and leaves in every phase. -/

namespace Sys2Proof.Machine

/-! ### The phases of the table of R164 -/

/-- A legal command in a phase whose cell is `PhaseError`. -/
theorem exec_phaseError {i : Instr} {s : State} (hf : s.engine.phase ≠ .fault) (hl : i.legal = true)
    (hp : phaseOk i s.engine.phase = false) : exec i s = .next (s.faulted 7) := by
  obtain ⟨body, hbody⟩ := exec_eq_runCommand i
  rw [hbody, runCommand_phaseError hf hl hp]

/-- `CSUM` is executed in the phases IDLE and DATA alone; the rows of `DIG`, `SYM` and `VRFY` are the same. -/
theorem phaseOk_csum_iff (p : Phase) : phaseOk .csum p = true ↔ p = .idle ∨ p = .data := by
  simp [phaseOk]

/-- A command of that row while an HRP is open or once the call is summed or verified. -/
theorem exec_phaseError_of_row {i : Instr} {s : State} (hl : i.legal = true) (hrow : phaseOk i = phaseOk .csum)
    (hp : s.engine.phase = .hrp ∨ s.engine.phase = .summed ∨ s.engine.phase = .verified) :
    exec i s = .next (s.faulted 7) := by
  obtain ⟨hfault, hcell⟩ : s.engine.phase ≠ .fault ∧ phaseOk .csum s.engine.phase = false := by
    rcases hp with hp | hp | hp <;> rw [hp] <;> decide
  exact exec_phaseError hfault hl (hrow ▸ hcell)

section Absorbing

variable {s : State} (hp : s.engine.phase = .idle ∨ s.engine.phase = .data)
include hp

/-- A command of the row of `CSUM` is executed by its own rule. -/
theorem runCommand_of_row (i : Instr) {body : Engine → Result} (hl : i.legal = true)
    (hrow : phaseOk i = phaseOk .csum) : runCommand i s body = commit s (body s.engine) :=
  runCommand_ok hl (hrow ▸ (phaseOk_csum_iff _).2 hp)

/-! ### `DIG` (R137) and `SYM` (R138) -/

/-- `DIG` of a value up to 31. -/
theorem exec_dig_of_le {d : Byte} (h : d.toNat ≤ 31) :
    exec (.dig d) s = .next (s.completes (s.engine.takeDigit (BitVec.ofNat 5 d.toNat)) 0) := by
  have hlow : lowDigit d = BitVec.ofNat 5 d.toNat := by rw [lowDigit_eq, Nat.mod_eq_of_lt (by omega)]
  have hvalid : validDigit d = true := decide_eq_true h
  rw [exec, execDig, runCommand_of_row hp (.dig d) rfl rfl, hvalid, hlow, Bool.not_true,
    if_neg Bool.false_ne_true]
  exact commit_respond s _ 0

/-- `DIG` of a value above 31 faults `InvalidDigit`. -/
theorem exec_dig_of_lt {d : Byte} (h : 31 < d.toNat) : exec (.dig d) s = .next (s.faulted 5) := by
  have hvalid : validDigit d = false := decide_eq_false (by omega)
  rw [exec, execDig, runCommand_of_row hp (.dig d) rfl rfl, hvalid]
  exact commit_raise s .invalidDigit

/-- `DIG` of a digit. -/
theorem exec_dig_digit (x : Digit) :
    exec (.dig (x.setWidth 8)) s = .next (s.completes (s.engine.takeDigit x) 0) := by
  have hx : (x.setWidth 8).toNat = x.toNat := BitVec.toNat_setWidth_of_le (by decide)
  rw [exec_dig_of_le hp (by omega), hx, BitVec.ofNat_toNat, BitVec.setWidth_eq]

/-- `SYM` of a byte that has a digit. -/
theorem exec_sym_of_some {c : Byte} {x : Digit} (h : s2d c = some x) :
    exec (.sym c) s = .next (s.completes (s.engine.takeDigit x) x.toNat) := by
  rw [exec, execSym, runCommand_of_row hp (.sym c) rfl rfl, h, commit_respond, zext_toNat (by decide)]

/-- `SYM` of a byte that has no digit faults `InvalidSymbol`. -/
theorem exec_sym_of_none {c : Byte} (h : s2d c = none) : exec (.sym c) s = .next (s.faulted 2) := by
  rw [exec, execSym, runCommand_of_row hp (.sym c) rfl rfl, h]
  exact commit_raise s .invalidSymbol

/-! ### `CSUM` (R139) and `VRFY` (R140) -/

/-- `CSUM` answers the checksum packed. -/
theorem exec_csum : exec .csum s = .next (s.completes s.engine.sum (afterZeros s.engine.chk ^^^ 1#30).toNat) := by
  rw [exec, execCsum, runCommand_of_row hp .csum rfl rfl]
  exact commit_respond s _ _

/-- `VRFY` with fewer than six digits faults `TooShort`. -/
theorem exec_vrfy_of_lt (h : s.engine.dcnt.toNat < 6) : exec .vrfy s = .next (s.faulted 3) := by
  rw [exec, execVrfy, runCommand_of_row hp .vrfy rfl rfl, Config.csumLen, if_pos h]
  exact commit_raise s .tooShort

/-- `VRFY` of a wrong residue under STRICT faults `ChecksumMismatch`. -/
theorem exec_vrfy_of_mismatch (h6 : 6 ≤ s.engine.dcnt.toNat) (hchk : s.engine.chk ≠ 1#30)
    (hstrict : s.engine.strict = true) : exec .vrfy s = .next (s.faulted 4) := by
  rw [exec, execVrfy, runCommand_of_row hp .vrfy rfl rfl, Config.csumLen, if_neg (by omega), hstrict,
    Config.polymodOk, bne_iff_ne.2 hchk]
  exact commit_raise s .checksumMismatch

/-- `VRFY` of any other residue judges it. -/
theorem exec_vrfy_of_judged (h6 : 6 ≤ s.engine.dcnt.toNat) (h : s.engine.chk = 1#30 ∨ s.engine.strict = false) :
    exec .vrfy s =
      .next (s.completes (s.engine.judge (s.engine.chk == 1#30)) (s.engine.chk == 1#30).toNat) := by
  have hjudged : ¬ (s.engine.chk != 1#30 && s.engine.strict) = true := by
    rcases h with h | h <;> simp [h]
  rw [exec, execVrfy, runCommand_of_row hp .vrfy rfl rfl, Config.csumLen, if_neg (by omega),
    Config.polymodOk, if_neg hjudged, commit_respond, verdictValue, zext_toNat (by decide), BitVec.toNat_ofBool]

end Absorbing

/-- Settles O18, by the value of the operand and the phase. -/
theorem digAbsorbsOneDigit : Obligations.DigAbsorbsOneDigit :=
  ⟨commandWord_eq_ofNat 4, fun _ _ hp => exec_dig_of_le hp, fun _ _ hp => exec_dig_of_lt hp,
    fun _ _ => exec_phaseError_of_row rfl rfl, fun _ _ hf => runCommand_refused hf rfl⟩

/-- `SYM` of the symbol of a digit leaves the architectural state that `DIG` of the digit leaves (R138). -/
theorem exec_sym_engine_eq_dig (r : Digit) {s t u : State} (ht : exec (.sym (d2s r)) s = .next t)
    (hu : exec (.dig (r.setWidth 8)) s = .next u) : t.engine = u.engine := by
  have same {c d : State} (hc : exec (.sym (d2s r)) s = .next c) (hd : exec (.dig (r.setWidth 8)) s = .next d)
      (h : c.engine = d.engine) : t.engine = u.engine := by
    rw [ht] at hc; rw [hu] at hd; cases hc; cases hd; exact h
  have closed (hp : s.engine.phase = .hrp ∨ s.engine.phase = .summed ∨ s.engine.phase = .verified) :=
    same (exec_phaseError_of_row rfl rfl hp) (exec_phaseError_of_row rfl rfl hp) rfl
  have absorbing (hp : s.engine.phase = .idle ∨ s.engine.phase = .data) :=
    same (exec_sym_of_some hp (s2d_d2s r)) (exec_dig_digit hp r) rfl
  cases hp : s.engine.phase with
  | idle => exact absorbing (.inl hp)
  | data => exact absorbing (.inr hp)
  | hrp => exact closed (.inl hp)
  | summed => exact closed (.inr (.inl hp))
  | verified => exact closed (.inr (.inr hp))
  | fault => exact same (exec_refused hp rfl) (exec_refused hp rfl) rfl

/-- Settles O19, by whether the byte is the symbol of a digit and by the phase. -/
theorem symAbsorbsDigitOfSymbol : Obligations.SymAbsorbsDigitOfSymbol :=
  ⟨commandWord_eq_ofNat 5, fun r _ hp => exec_sym_of_some hp (s2d_d2s r),
    fun _ _ hp h => exec_sym_of_none hp (s2d_eq_none h), fun _ _ => exec_phaseError_of_row rfl rfl,
    fun _ _ hf => runCommand_refused hf rfl, fun r _ _ _ => exec_sym_engine_eq_dig r⟩

/-- A field of five bits, as the number the spec writes (R53). -/
theorem field_eq_ofNat (t : Acc) (lo : Nat) : t.extractLsb' lo 5 = BitVec.ofNat 5 (t.toNat / 2 ^ lo % 32) := by
  apply BitVec.eq_of_toNat_eq
  rw [field_toNat, BitVec.toNat_ofNat, show 2 ^ 5 = 32 from rfl, Nat.mod_mod]

/-- The six fields of a value, as numbers (R139). -/
theorem ofPacked_eq (t : Acc) :
    Digits.ofPacked t =
      ⟨BitVec.ofNat 5 (t.toNat / 2 ^ 25), BitVec.ofNat 5 (t.toNat / 2 ^ 20 % 32),
        BitVec.ofNat 5 (t.toNat / 2 ^ 15 % 32), BitVec.ofNat 5 (t.toNat / 2 ^ 10 % 32),
        BitVec.ofNat 5 (t.toNat / 2 ^ 5 % 32), BitVec.ofNat 5 (t.toNat % 32)⟩ := by
  have htop : t.toNat / 2 ^ 25 % 32 = t.toNat / 2 ^ 25 := by have := t.isLt; omega
  simp only [Digits.ofPacked, field_eq_ofNat, htop, pow_zero, Nat.div_one]

/-- Settles O20: the digits are the fields of what is answered. -/
theorem csumCreatesChecksum : Obligations.CsumCreatesChecksum := by
  refine ⟨rfl, fun s hp => ⟨_, _, s.engine.sum, rfl, rfl, ?_, exec_csum hp⟩,
    fun _ => exec_phaseError_of_row rfl rfl, fun _ hf => runCommand_refused hf rfl⟩
  rw [← ofPacked_eq]
  rfl

/-- Settles O21, by the count, the residue, STRICT and the phase. -/
theorem vrfyJudgesResidue : Obligations.VrfyJudgesResidue := by
  refine ⟨rfl, fun s hp h6 hchk => ?_, fun s hp h6 hchk hstrict => ?_, fun _ => exec_vrfy_of_mismatch,
    fun _ => exec_vrfy_of_lt, fun _ => exec_phaseError_of_row rfl rfl, fun _ hf => runCommand_refused hf rfl⟩
  · rw [exec_vrfy_of_judged hp h6 (.inl hchk), hchk]
    rfl
  · rw [exec_vrfy_of_judged hp h6 (.inr hstrict), beq_eq_false_iff_ne.2 hchk]
    rfl

/-! ### `RDD` (R141) and `RDS` (R142) -/

/-- A digit register that exists is read by its index (R22). -/
theorem toList_getElem?_eq_some {d : Digits} {i : BitVec 3} {x : Digit} (h : d.toList[i.toNat]? = some x) :
    i.toNat ≤ 5 ∧ d.read i = x := by
  obtain ⟨hlt, hx⟩ := List.getElem?_eq_some_iff.1 h
  have h5 : i.toNat ≤ 5 := Nat.le_of_lt_succ hlt
  refine ⟨h5, hx.symm ▸ ?_⟩
  unfold Digits.read
  generalize i.toNat = n at *
  interval_cases n <;> rfl

/-- The index of a digit register, widened to the field `imm`, keeps its number. -/
theorem commandWord_index_eq_ofNat (op : BitVec 4) (i : BitVec 3) :
    commandWord op (i.setWidth 8) = BitVec.ofNat 16 (op.toNat * 4096 + i.toNat) := by
  rw [commandWord_eq_ofNat, BitVec.toNat_setWidth_of_le (by decide)]

/-- `RDD` and `RDS` are legal up to index 5 (R73). -/
theorem legal_rdd_iff (i : BitVec 3) : (Instr.rdd i).legal = decide (i.toNat ≤ 5) := Bool.and_true _

/-- `RDD` and `RDS` are executed in phase SUMMED alone. -/
theorem phaseOk_rdd_iff (i : BitVec 3) (p : Phase) : phaseOk (.rdd i) p = true ↔ p = .summed := beq_iff_eq

section Reading

variable {j : Instr} {i : BitVec 3} {s : State} (hj : j = .rdd i ∨ j = .rds i)
include hj

/-- `RDD` or `RDS` in phase SUMMED is executed by its own rule. -/
theorem runCommand_of_summed {body : Engine → Result} (h5 : i.toNat ≤ 5) (hs : s.engine.phase = .summed) :
    runCommand j s body = commit s (body s.engine) := by
  have hcell : phaseOk (.rdd i) s.engine.phase = true := (phaseOk_rdd_iff i _).2 hs
  have hlegal : (Instr.rdd i).legal = true := (legal_rdd_iff i).trans (decide_eq_true h5)
  rcases hj with rfl | rfl
  · exact runCommand_ok hlegal hcell
  · exact runCommand_ok hlegal hcell

/-- `RDD` or `RDS` outside phase SUMMED. -/
theorem exec_read_of_unsummed (h5 : i.toNat ≤ 5) (hs : s.engine.phase ≠ .summed) (hf : s.engine.phase ≠ .fault) :
    exec j s = .next (s.faulted 7) := by
  have hcell : phaseOk (.rdd i) s.engine.phase = false := by rwa [← Bool.not_eq_true, phaseOk_rdd_iff]
  have hlegal : (Instr.rdd i).legal = true := (legal_rdd_iff i).trans (decide_eq_true h5)
  rcases hj with rfl | rfl
  · exact exec_phaseError hf hlegal hcell
  · exact exec_phaseError hf hlegal hcell

/-- `RDD` or `RDS` of an index above 5 (R75). -/
theorem exec_read_of_illegal (h5 : 5 < i.toNat) (hf : s.engine.phase ≠ .fault) : exec j s = .next (s.faulted 6) := by
  have hlegal : (Instr.rdd i).legal = false := (legal_rdd_iff i).trans (decide_eq_false (by omega))
  rcases hj with rfl | rfl
  · exact exec_illegal hlegal hf
  · exact exec_illegal hlegal hf

/-- `RDD` or `RDS` in phase FAULT. -/
theorem exec_read_of_fault (hf : s.engine.phase = .fault) : exec j s = .next s.turnedAway := by
  rcases hj with rfl | rfl <;> exact exec_refused hf (Bool.and_false _)

end Reading

/-- `RDD` in phase SUMMED answers the digit. -/
theorem exec_rdd_of_summed {i : BitVec 3} {x : Digit} {s : State} (hp : s.engine.phase = .summed)
    (h : s.engine.d.toList[i.toNat]? = some x) : exec (.rdd i) s = .next (s.completes s.engine x.toNat) := by
  obtain ⟨h5, hx⟩ := toList_getElem?_eq_some h
  rw [exec, execRdd, runCommand_of_summed (.inl rfl) h5 hp, commit_respond, hx, zext_toNat (by decide)]

/-- `RDS` in phase SUMMED answers its symbol. -/
theorem exec_rds_of_summed {i : BitVec 3} {x : Digit} {s : State} (hp : s.engine.phase = .summed)
    (h : s.engine.d.toList[i.toNat]? = some x) :
    exec (.rds i) s = .next (s.completes s.engine (d2s x).toNat) := by
  obtain ⟨h5, hx⟩ := toList_getElem?_eq_some h
  rw [exec, execRds, runCommand_of_summed (.inr rfl) h5 hp, commit_respond, hx, zext_toNat (by decide)]

/-- Settles O22, by the index and the phase. -/
theorem rddAnswersChecksumDigit : Obligations.RddAnswersChecksumDigit :=
  ⟨commandWord_index_eq_ofNat 10, fun _ _ _ => exec_rdd_of_summed, fun _ _ => exec_read_of_unsummed (.inl rfl),
    fun _ _ => exec_read_of_illegal (.inl rfl), fun _ _ => exec_read_of_fault (.inl rfl)⟩

/-- Settles O23, by the index and the phase. -/
theorem rdsAnswersChecksumSymbol : Obligations.RdsAnswersChecksumSymbol :=
  ⟨commandWord_index_eq_ofNat 11, fun _ _ _ => exec_rds_of_summed, fun _ _ => exec_read_of_unsummed (.inr rfl),
    fun _ _ => exec_read_of_illegal (.inr rfl), fun _ _ => exec_read_of_fault (.inr rfl)⟩

end Sys2Proof.Machine

/-! Whole calls (spec/42_checksum.md R143, R146): the responses from `INIT` on depend on the words and on STRICT alone,
CHK is the `polymod` of the digits fed, and the calls that create and verify a checksum. -/

namespace Sys2Proof.Machine

/-! ### Determinism (R146) -/

/-- From the invariant every word is answered (R166). -/
theorem runWord_next (w : CmdWord) {s : State} (h : s.Inv) : ∃ t, runWord w s = .next t := by
  rcases runWord_cases w s with ⟨i, -, hr⟩ | ⟨why, -, hr⟩
  · rw [hr]
    exact exec_next h.hlen_le
  · rw [hr]
    by_cases hf : s.engine.phase = .fault
    · exact ⟨_, commit_illegal_fault hf⟩
    · exact ⟨_, commit_illegal hf⟩

/-- Two machines that have answered alike, and differ only in entries of HBUF the call has not written. -/
structure State.AnswersAlike (s t : State) : Prop where
  inv_left : s.Inv
  inv_right : t.Inv
  outputs : s.outputs = t.outputs
  rsp : s.rsp = t.rsp
  engine : s.engine.sameCall t.engine

/-- They go on answering alike. -/
theorem runWords_alike (ws : List CmdWord) {s t : State} (h : s.AnswersAlike t) :
    ∃ s' t' : State, runWords ws s = .next s' ∧ runWords ws t = .next t' ∧ s'.AnswersAlike t' := by
  induction ws generalizing s t with
  | nil => exact ⟨s, t, rfl, rfl, h⟩
  | cons w ws ih =>
    have hs : s.transfer.Inv := by simpa [State.Inv] using h.inv_left
    have ht : t.transfer.Inv := by simpa [State.Inv] using h.inv_right
    obtain ⟨u, hu⟩ := runWord_next w hs
    obtain ⟨v, hv⟩ := runWord_next w ht
    obtain ⟨hrsp, hengine⟩ := unwrittenBufferIsUnobservable w _ _ u v hs ht (by simpa using h.engine) hu hv
    have houtputs : u.outputs = v.outputs := by
      rw [(runWord_streams hu).2.1, (runWord_streams hv).2.1, State.transfer_outputs, State.transfer_outputs, h.outputs,
        h.rsp]
    rw [runWords, runWords, hu, hv]
    exact ih ⟨runWord_keeps_inv hs hu, runWord_keeps_inv ht hv, houtputs, hrsp, hengine⟩

/-- After `INIT` nothing is left of two states but STRICT and entries of HBUF no call has written (R161). -/
theorem openCall_sameCall {e f : Engine} (h : e.strict = f.strict) : e.openCall.sameCall f.openCall :=
  ⟨by rw [Engine.openCall, Engine.openCall, h], fun _ hk => absurd hk (Nat.not_lt_zero _)⟩

/-- The word of `INIT` opens a call in every state. -/
theorem runWords_init_cons (ws : List CmdWord) (s : State) :
    runWords (encode .init :: ws) s = runWords ws (s.transfer.completes s.engine.openCall 0) := by
  rw [runWords, runWord_encode rfl, exec_init, State.transfer_engine]

/-- Settles O47: `INIT` makes the two states alike, and each further word keeps them so. -/
theorem callDependsOnItsWordsAndStrictAlone : Obligations.CallDependsOnItsWordsAndStrictAlone := by
  intro ws s t hs ht hstrict houtputs hrsp
  rw [runWords_init_cons, runWords_init_cons]
  obtain ⟨s', t', hs', ht', halike⟩ := runWords_alike ws
    (s := s.transfer.completes s.engine.openCall 0) (t := t.transfer.completes t.engine.openCall 0)
    { inv_left := Engine.Inv.openCall hs
      inv_right := Engine.Inv.openCall ht
      outputs := by simp [State.completes, houtputs, hrsp]
      rsp := rfl
      engine := openCall_sameCall hstrict }
  exact ⟨s', t', hs', ht', halike.outputs, halike.rsp, halike.engine⟩

/-! ### CHK is the `polymod` of the digits fed (R143) -/

/-- The call absorbs no more: it is summed or it faulted. -/
def Engine.Closed (e : Engine) : Prop := e.phase = .fault ∨ e.phase = .summed

/-- The low parts buffered in the call are `lows` (R113). -/
def Engine.Buffered (e : Engine) (lows : List Digit) : Prop :=
  e.hbuf.wf = true ∧ e.hbuf.readFirst e.hlen.toNat = some lows

/-- The low parts buffered after one more command that completes. -/
def bufferedAfter (lows : List Digit) : Instr → List Digit
  | .hrpb b => lows ++ [lowDigit b]
  | _ => lows

/-- The digits fed are those of the first command and those of the rest. -/
theorem fedDigits_cons (lows : List Digit) (i : Instr) (is : List Instr) :
    fedDigits lows (i :: is) = fedDigits lows [i] ++ fedDigits (bufferedAfter lows i) is := by
  cases i <;> simp [fedDigits, bufferedAfter, lowDigit_eq]

/-- A fresh call has no low parts yet. -/
theorem Engine.Buffered.of_fresh {e : Engine} (h : e.fresh) (hm : e.hbuf.wf = true) : e.Buffered [] := by
  obtain ⟨-, -, -, -, -, hhlen, -⟩ := h
  exact ⟨hm, by rw [hhlen]; rfl⟩

/-- A command that completes absorbs the digits it feeds, in order, and buffers the low part of an HRP byte; `INIT`
starts anew and `CSUM` absorbs zeros of its own. -/
theorem Effect.feeds {i : Instr} {e e' : Engine} {x : Nat} (he : Effect i e e' x) {lows : List Digit}
    (hb : e.Buffered lows) (hi : i ≠ .init) (hc : i ≠ .csum) :
    e'.chk = absorbAll e.chk (fedDigits lows [i]) ∧ e'.Buffered (bufferedAfter lows i) := by
  cases i with
  | nop | rdr n | wrc v => obtain ⟨rfl, -⟩ := he; exact ⟨rfl, hb⟩
  | s2d c => obtain ⟨-, r, -, rfl, -⟩ := he; exact ⟨rfl, hb⟩
  | d2s d | rdd k | rds k => obtain ⟨-, -, rfl, -⟩ := he; exact ⟨rfl, hb⟩
  | vrfy => obtain ⟨-, -, -, rfl, -⟩ := he; exact ⟨rfl, hb⟩
  | hrpb b =>
    obtain ⟨-, -, -, m, hm, rfl, -⟩ := he
    obtain ⟨hwf, hread⟩ := hb
    obtain ⟨hlt, hwf', -, -⟩ := Memory.write_spec hwf hm
    refine ⟨by rw [Engine.takeHrpByte_chk, highDigit_eq]; rfl, hwf', ?_⟩
    rw [Engine.takeHrpByte_hlen_toNat b m hlt]
    exact Memory.readFirst_write hwf hm hread
  | hrpend =>
    obtain ⟨-, -, lows', hread, rfl, -⟩ := he
    obtain rfl : lows = lows' := Option.some.inj (hb.2.symm.trans hread)
    exact ⟨by simp [fedDigits], hb⟩
  | dig d =>
    obtain ⟨-, hvalid, rfl, -⟩ := he
    have hlt : d.toNat < 32 := Nat.lt_succ_of_le (of_decide_eq_true hvalid)
    exact ⟨by rw [Engine.takeDigit_chk, lowDigit_eq, Nat.mod_eq_of_lt hlt]; rfl, hb⟩
  | sym c =>
    obtain ⟨-, r, hr, rfl, -⟩ := he
    exact ⟨by rw [fedDigits, hr]; rfl, hb⟩
  | init => exact (hi rfl).elim
  | csum => exact (hc rfl).elim
  | reservedOp14 r | reservedOp15 r => exact he.elim

/-- Only `INIT` leaves the phases SUMMED and FAULT, but for a fault in SUMMED (R165). -/
theorem exec_closed {i : Instr} {s t : State} (h : exec i s = .next t) (hs : s.engine.Closed) (hi : i ≠ .init) :
    t.engine.Closed := by
  rcases exec_inv h with ⟨-, -, rfl⟩ | ⟨-, c, -, rfl⟩ | ⟨-, hp, e, x, he, rfl⟩
  · exact hs
  · exact .inl rfl
  · cases i with
    | nop | rdr n | wrc v => obtain ⟨rfl, -⟩ := he; exact hs
    | s2d c => obtain ⟨-, r, -, rfl, -⟩ := he; exact hs
    | d2s d | rdd k | rds k => obtain ⟨-, -, rfl, -⟩ := he; exact hs
    | hrpb b | hrpend | dig d | sym c | csum | vrfy =>
      rcases hs with hs | hs <;> rw [hs] at hp <;> cases hp
    | init => exact (hi rfl).elim
    | reservedOp14 r | reservedOp15 r => exact he.elim

/-- A program that runs to an end begins with an instruction that answers a next state. -/
theorem runWords_encode_cons_inv {i : Instr} {is : List Instr} {s t : State} (hwf : i.wf = true)
    (h : runWords ((i :: is).map encode) s = .next t) :
    ∃ u, exec i s.transfer = .next u ∧ runWords (is.map encode) u = .next t := by
  rw [List.map_cons, runWords, runWord_encode hwf] at h
  split at h
  · next u hu => exact ⟨u, hu, h⟩
  · cases h
  · cases h

/-- What every instruction of a program keeps, the program keeps. -/
theorem runWords_keeps {P : Engine → Prop} {is : List Instr} {s t : State} (hwf : ∀ i ∈ is, i.wf = true)
    (hkeeps : ∀ i ∈ is, ∀ u v : State, exec i u = .next v → P u.engine → P v.engine)
    (h : runWords (is.map encode) s = .next t) (hs : P s.engine) : P t.engine := by
  induction is generalizing s with
  | nil => cases h; exact hs
  | cons i is ih =>
    obtain ⟨hi, his⟩ := List.forall_mem_cons.1 hwf
    obtain ⟨hk, hks⟩ := List.forall_mem_cons.1 hkeeps
    obtain ⟨u, hu, h⟩ := runWords_encode_cons_inv hi h
    exact ih his hks h (hk _ _ hu (by simpa using hs))

/-- A program without `INIT` that ends with the call not closed absorbs the digits it feeds. -/
theorem runWords_feeds {is : List Instr} {lows : List Digit} {s t : State} (hb : s.engine.Buffered lows)
    (hinit : ∀ i ∈ is, i ≠ .init) (hwf : ∀ i ∈ is, i.wf = true) (h : runWords (is.map encode) s = .next t)
    (ht : ¬ t.engine.Closed) : t.engine.chk = absorbAll s.engine.chk (fedDigits lows is) := by
  induction is generalizing s lows with
  | nil => cases h; rfl
  | cons i is ih =>
    obtain ⟨hi, his⟩ := List.forall_mem_cons.1 hinit
    obtain ⟨hw, hws⟩ := List.forall_mem_cons.1 hwf
    obtain ⟨u, hu, h⟩ := runWords_encode_cons_inv hw h
    have hopen : ¬ u.engine.Closed := fun hc =>
      ht (runWords_keeps hws (fun j hj _ _ hx hc => exec_closed hx hc (his j hj)) h hc)
    rcases exec_inv hu with ⟨hf, -, rfl⟩ | ⟨-, c, -, rfl⟩ | ⟨-, -, e, x, he, rfl⟩
    · exact (hopen (.inl hf)).elim
    · exact (hopen (.inl rfl)).elim
    · have hcsum : i ≠ .csum := by
        rintro rfl
        obtain ⟨-, rfl, -⟩ := he
        exact hopen (.inr rfl)
      obtain ⟨hchk, hb'⟩ := he.feeds (lows := lows) (by simpa using hb) hi hcsum
      rw [State.transfer_engine] at hchk
      rw [fedDigits_cons, absorbAll_append, ← hchk]
      exact ih hb' his hws h

/-- Settles O48, from a fresh call, where CHK is 1 and no low part is buffered. -/
theorem chkIsPolymodOfDigitsFed : Obligations.ChkIsPolymodOfDigitsFed := by
  intro is s t hs hm hinit hwf hrun hfault hsummed
  rw [run_load] at hrun
  have hopen : ¬ t.engine.Closed := not_or.2 ⟨hfault, hsummed⟩
  have hchk : s.engine.chk = Config.polymodInit := hs.1
  rw [runWords_feeds (.of_fresh hs hm) hinit hwf hrun hopen, hchk, polymod]

/-! ### The calls that create and verify a checksum (R143) -/

/-- STRICT is kept by a program without `WRC` (R20). -/
theorem runWords_keeps_strict {is : List Instr} {s t : State} (hwf : ∀ i ∈ is, i.wf = true)
    (hwrc : ∀ i ∈ is, ∀ v, i ≠ .wrc v) (h : runWords (is.map encode) s = .next t) :
    t.engine.strict = s.engine.strict := by
  refine runWords_keeps (P := fun e => e.strict = s.engine.strict) hwf (fun i hi u v hx hu => ?_) h rfl
  obtain ⟨-, -, -, -, -, -, hstrict, -⟩ := stateIsWrittenByItsWritersAlone i u v hx
  by_contra hne
  obtain ⟨b, hb⟩ := hstrict fun heq => hne (heq.trans hu)
  exact hwrc i hi b hb

/-- The HRP `h` was closed and the digits `ds` absorbed after it. -/
structure Engine.Absorbed (e : Engine) (h : List Byte) (ds : List Digit) : Prop where
  phase : e.phase = .data
  chk : e.chk = polymod (hrpExpand h ++ ds)
  dcnt : e.dcnt.toNat = min ds.length 6

/-- The saturating count, on numbers (R28). -/
theorem countDigit_toNat (n : BitVec 3) : (countDigit n).toNat = min (n.toNat + 1) 6 := by revert n; decide

/-- One more digit absorbed. -/
theorem Engine.Absorbed.takeDigit {e : Engine} {h : List Byte} {ds : List Digit} (he : e.Absorbed h ds) (x : Digit) :
    (e.takeDigit x).Absorbed h (ds ++ [x]) where
  phase := rfl
  chk := by rw [Engine.takeDigit_chk, he.chk, ← List.append_assoc, polymod_append _ [x]]; rfl
  dcnt := by
    rw [Engine.takeDigit_dcnt, countDigit_toNat, he.dcnt, List.length_append, List.length_singleton]
    omega

/-- `DIGS` absorbs its digits (R79). -/
theorem runWords_digsProgram {h : List Byte} {ds es : List Digit} {s : State} (hs : s.engine.Absorbed h ds) :
    ∃ t, runWords ((digsProgram es).map encode) s = .next t ∧ t.engine.Absorbed h (ds ++ es) := by
  induction es generalizing ds s with
  | nil => exact ⟨s, rfl, by rwa [List.append_nil]⟩
  | cons x es ih =>
    have hs' : s.transfer.engine.Absorbed h ds := by simpa using hs
    rw [digsProgram, List.map_cons, runWords_encode_cons rfl (exec_dig_digit (.inr hs'.phase) x), List.append_cons]
    exact ih (hs'.takeDigit x)

/-- The commands of a call before its last one: `INIT`, the HRP, the data digits (R143). -/
def callProgram (h : List Byte) (ds : List Digit) : List Instr := [.init] ++ hrpProgram h ++ digsProgram ds

/-- Such a call, and one command more, have so many commands. -/
theorem length_callProgram_append (h : List Byte) (ds : List Digit) (i : Instr) :
    (callProgram h ds ++ [i]).length = h.length + ds.length + 3 := by
  simp only [callProgram, digsProgram, List.length_append, List.length_map, List.length_singleton, length_hrpProgram]
  omega

/-- None of these commands is `WRC`. -/
theorem callProgram_commands (h : List Byte) (ds : List Digit) :
    (∀ i ∈ callProgram h ds, i.wf = true) ∧ ∀ i ∈ callProgram h ds, ∀ v, i ≠ .wrc v := by
  simp [callProgram, hrpProgram, digsProgram, Instr.wf, or_imp, forall_and]

/-- With a valid HRP all the digits are absorbed, and STRICT is as before the call. -/
theorem runWords_callProgram {h : List Byte} (ds : List Digit) {s : State} (hm : s.engine.hbuf.wf = true)
    (hv : validHrp h = true) :
    ∃ t, runWords ((callProgram h ds).map encode) s = .next t ∧ t.engine.Absorbed h ds ∧
      t.engine.strict = s.engine.strict := by
  obtain ⟨u, hu, hclosed, -⟩ := runWords_hrpProgram (s := s.transfer.completes s.engine.openCall 0) h
    (.of_fresh s.engine.openCall_fresh hm)
  obtain ⟨hphase, -, hchk, -, hdcnt⟩ : u.engine.HrpClosed h := hclosed hv
  have hnone : u.engine.Absorbed h [] := ⟨hphase, by rw [hchk, List.append_nil], by rw [hdcnt]; rfl⟩
  obtain ⟨t, ht, habsorbed⟩ := runWords_digsProgram (es := ds) hnone
  have hrun : runWords ((callProgram h ds).map encode) s = .next t := by
    rw [callProgram, List.append_assoc, List.singleton_append, List.map_cons, runWords_init_cons,
      runWords_encode_append hu, ht]
  obtain ⟨hwf, hwrc⟩ := callProgram_commands h ds
  exact ⟨t, hrun, habsorbed, runWords_keeps_strict hwf hwrc hrun⟩

/-- The loaded call ends as its last command does, from a state in which all digits are absorbed. -/
theorem run_callProgram_append {h : List Byte} (ds : List Digit) {i : Instr} {s : State}
    (hm : s.engine.hbuf.wf = true) (hv : validHrp h = true) (hwf : i.wf = true) :
    ∃ u : State, u.engine.Absorbed h ds ∧ u.engine.strict = s.engine.strict ∧
      ∀ t, exec i u = .next t →
        Host.Core.run core (h.length + ds.length + 3) (s.load (callProgram h ds ++ [i])) = .next t := by
  obtain ⟨u, hu, habsorbed, hstrict⟩ := runWords_callProgram ds hm hv
  refine ⟨u.transfer, by simpa using habsorbed, by simpa using hstrict, fun t ht => ?_⟩
  rw [run_load_of_length (length_callProgram_append h ds i), runWords_encode_append hu, runWords_encode_cons hwf ht]
  rfl

/-- Settles O49: `CSUM` absorbs the six zeros of `createChecksum`. -/
theorem checksumCallComputesCreateChecksum : Obligations.ChecksumCallComputesCreateChecksum := by
  intro h ds s hm hv
  obtain ⟨u, habsorbed, -, hrun⟩ := run_callProgram_append ds (i := .csum) hm hv rfl
  have hsum : Digits.ofPacked (afterZeros u.engine.chk ^^^ 1#30) = createChecksum h ds := by
    rw [afterZeros, habsorbed.chk, ← polymod_append]
    rfl
  exact ⟨_, _, hrun _ (exec_csum (.inr habsorbed.phase)), rfl, hsum, hsum, rfl⟩

/-- Settles O50: the residue that `VRFY` judges is the one of `verifyChecksum`. -/
theorem verifyCallComputesVerifyChecksum : Obligations.VerifyCallComputesVerifyChecksum := by
  intro h ds s hm hv hlen
  obtain ⟨u, habsorbed, hstrict, hrun⟩ := run_callProgram_append ds (i := .vrfy) hm hv rfl
  obtain ⟨-, hgood, hlax, hmismatch, -⟩ := vrfyJudgesResidue
  have hphase : u.engine.phase = .idle ∨ u.engine.phase = .data := .inr habsorbed.phase
  have h6 : 6 ≤ u.engine.dcnt.toNat := by rw [habsorbed.dcnt]; omega
  have hresidue : u.engine.chk = 1#30 ↔ verifyChecksum h ds = true := by rw [habsorbed.chk, verifyChecksum_iff]
  cases hok : verifyChecksum h ds with
  | true => exact ⟨_, hrun _ (hgood u hphase h6 (hresidue.2 hok)), fun _ => ⟨rfl, rfl, rfl⟩, nofun, nofun⟩
  | false =>
    have hbad : u.engine.chk ≠ 1#30 := by rw [ne_eq, hresidue, hok]; exact Bool.false_ne_true
    cases hs : s.engine.strict with
    | true =>
      exact ⟨_, hrun _ (hmismatch u hphase h6 hbad (hstrict.trans hs)), nofun, fun _ _ => ⟨rfl, rfl⟩, nofun⟩
    | false =>
      exact ⟨_, hrun _ (hlax u hphase h6 hbad (hstrict.trans hs)), nofun, nofun, fun _ _ => ⟨rfl, rfl, rfl⟩⟩

/-- Settles O52: the call of `verifyChecksum` on what `createChecksum` made. -/
theorem createThenVerifyAnswersOne : Obligations.CreateThenVerifyAnswersOne := by
  intro h ds s hm hv
  have hlen : (ds ++ (createChecksum h ds).toList).length = ds.length + 6 := List.length_append
  obtain ⟨t, hrun, hok, -⟩ :=
    verifyCallComputesVerifyChecksum h (ds ++ (createChecksum h ds).toList) s hm hv (by omega)
  rw [hlen] at hrun
  exact ⟨t, hrun, hok (verifyChecksum_createChecksum h ds)⟩

end Sys2Proof.Machine

/-! The system commands (spec/43_system.md R160 to R163), the table of which command is legal in which phase (R164), the
phase transitions (R165), the execution of one word (R166) and raw calls (R167). -/

namespace Sys2Proof.Machine

/-! ### `NOP`, `RDR` and `WRC` (R160, R162, R163) -/

/-- The command word of an operand of up to 8 bits, as the number the spec writes (R70, R80). -/
theorem commandWord_operand_eq_ofNat (op : BitVec 4) {k : Nat} (hk : k ≤ 8) (n : BitVec k) :
    commandWord op (n.setWidth 8) = BitVec.ofNat 16 (op.toNat * 4096 + n.toNat) := by
  rw [commandWord_eq_ofNat, BitVec.toNat_setWidth_of_le hk]

/-- `NOP` is executed in every phase (R160). -/
theorem exec_nop (s : State) : exec .nop s = .next (s.completes s.engine 0) :=
  (runCommand_ok rfl rfl).trans (commit_respond s s.engine 0)

/-- `RDR` is executed in every phase (R162). -/
theorem exec_rdr (n : BitVec 2) (s : State) :
    exec (.rdr n) s = .next (s.completes s.engine (s.engine.register n).toNat) :=
  (runCommand_ok rfl rfl).trans (commit_respond s s.engine (s.engine.register n))

/-- `WRC` is executed in every phase (R163). -/
theorem exec_wrc (v : BitVec 1) (s : State) : exec (.wrc v) s = .next (s.completes (s.engine.writeCtrl v) 0) :=
  (runCommand_ok rfl rfl).trans (commit_respond s (s.engine.writeCtrl v) 0)

/-- Settles O1, with the encoding by evaluation. -/
theorem nopAnswersZeroInEveryPhase : Obligations.NopAnswersZeroInEveryPhase :=
  ⟨rfl, exec_nop⟩

/-- The one bit of `WRC`'s operand, as a number. -/
theorem beq_one_eq_decide_toNat (v : BitVec 1) : (v == 1#1) = decide (v.toNat = 1) := by
  revert v; decide

/-- Settles O4: STRICT becomes the one bit of the operand. -/
theorem wrcWritesStrictAlone : Obligations.WrcWritesStrictAlone :=
  ⟨commandWord_operand_eq_ofNat 13 (by decide), fun v s => by
    rw [exec_wrc, Engine.writeCtrl, beq_one_eq_decide_toNat]⟩

/-! ### The registers as numbers (R30 to R33) -/

/-- The three bits of a phase are its number (R23). -/
theorem Phase.bits_toNat (p : Phase) : p.bits.toNat = p.number := by
  cases p <;> rfl

/-- F is 1 in phase FAULT alone (R30). -/
theorem Engine.faultPin_toNat (e : Engine) : e.faultPin.toNat = if e.phase = .fault then 1 else 0 := by
  by_cases h : e.phase = .fault <;> simp [faultPin, h]

/-- STATUS as a number (R30). -/
theorem Engine.statusReg_toNat (e : Engine) :
    e.statusReg.toNat =
      e.phase.number + 8 * (if e.phase = .fault then 1 else 0) + 16 * e.err.toNat + 256 * e.v.toNat := by
  rw [statusReg, zext_toNat (by decide), append_toNat, append_toNat, append_toNat, BitVec.toNat_ofBool,
    BitVec.toNat_ofBool, Phase.bits_toNat, ← Engine.faultPin_toNat]
  omega

/-- CTRL as a number (R31). -/
theorem Engine.ctrlReg_toNat (e : Engine) : e.ctrlReg.toNat = e.strict.toNat := by
  rw [ctrlReg, zext_toNat (by decide), BitVec.toNat_ofBool]

/-- LEN as a number (R33). -/
theorem Engine.lenReg_toNat (e : Engine) : e.lenReg.toNat = e.hlen.toNat + 256 * e.dcnt.toNat := by
  rw [lenReg, zext_toNat (by decide), append_toNat, append_toNat, BitVec.toNat_ofNat]
  omega

/-- Settles O3, by the number of the register. -/
theorem rdrAnswersRegister : Obligations.RdrAnswersRegister := by
  refine ⟨commandWord_operand_eq_ofNat 12 (by decide), fun s => ?_, fun s => ?_, exec_rdr 2, fun s => ?_⟩
  · rw [← Engine.statusReg_toNat]
    exact exec_rdr 0 s
  · rw [← Engine.ctrlReg_toNat]
    exact exec_rdr 1 s
  · rw [← Engine.lenReg_toNat]
    exact exec_rdr 3 s

/-! ### `INIT` (R161) -/

/-- In phase FAULT every command but `INIT` leaves the phase (R165, R188). -/
theorem exec_keeps_fault {i : Instr} {s t : State} (h : exec i s = .next t) (hf : s.engine.phase = .fault)
    (hi : i ≠ .init) : t.engine.phase = .fault := by
  rcases exec_inv h with ⟨-, -, rfl⟩ | ⟨hne, -⟩ | ⟨-, hp, e, x, he, rfl⟩
  · exact hf
  · exact (hne hf).elim
  · rw [hf] at hp
    cases i with
    | nop | rdr n | wrc v => obtain ⟨rfl, -⟩ := he; exact hf
    | init => exact (hi rfl).elim
    | hrpb b | hrpend | dig d | sym c | csum | vrfy | s2d c | d2s d | rdd k | rds k | reservedOp14 r
    | reservedOp15 r => cases hp

/-- Settles O2: what `INIT` writes is `Engine.openCall`, and no other command leaves phase FAULT. -/
theorem initOpensFreshCall : Obligations.InitOpensFreshCall := by
  refine ⟨rfl, exec_init, fun s t h => ?_, exec_init State.reset, fun i s t hf h hne => ?_⟩
  · rw [exec_init] at h; cases h; rfl
  · by_contra hi
    exact hne (exec_keeps_fault h hf hi)

/-! ### Which command is legal in which phase (R164) -/

/-- The table as a function: the cell is `ok` where `phaseOk` holds, and elsewhere the column FAULT decides. -/
theorem legalityTable_eq (i : Instr) (p : Phase) :
    legalityTable i p =
      if i.reserved then none
      else some (if phaseOk i p then .ok else if p = .fault then .refused else .phaseError) := by
  cases i <;> cases p <;> rfl

/-- A cell `ok` (R164). -/
theorem legalityTable_ok {i : Instr} {p : Phase} (h : legalityTable i p = some .ok) :
    i.reserved = false ∧ phaseOk i p = true := by
  rw [legalityTable_eq] at h
  split_ifs at h with hr hok hf <;> cases h
  exact ⟨Bool.eq_false_of_not_eq_true hr, hok⟩

/-- A cell `PhaseError` (R164). -/
theorem legalityTable_phaseError {i : Instr} {p : Phase} (h : legalityTable i p = some .phaseError) :
    i.reserved = false ∧ p ≠ .fault ∧ phaseOk i p = false := by
  rw [legalityTable_eq] at h
  split_ifs at h with hr hok hf <;> cases h
  exact ⟨Bool.eq_false_of_not_eq_true hr, hf, Bool.eq_false_of_not_eq_true hok⟩

/-- A cell `refused` (R164). -/
theorem legalityTable_refused {i : Instr} {p : Phase} (h : legalityTable i p = some .refused) :
    p = .fault ∧ phaseOk i p = false := by
  rw [legalityTable_eq] at h
  split_ifs at h with hr hok hf <;> cases h
  exact ⟨hf, Bool.eq_false_of_not_eq_true hok⟩

/-- A well-formed command whose opcode is not reserved is legal (R73). -/
theorem legal_of_wf {i : Instr} (hwf : i.wf = true) (hr : i.reserved = false) : i.legal = true := by
  rw [Instr.legal, hwf, hr]; rfl

/-- No command's own rule raises `PhaseError` (R182). -/
theorem OwnFault.ne_phaseError {i : Instr} {e : Engine} {c : FaultCode} (h : OwnFault i e c) : c ≠ .phaseError := by
  cases i with
  | hrpb b | hrpend | dig d | d2s d | sym x | s2d x => obtain ⟨rfl, -⟩ := h; decide
  | vrfy => rcases h with ⟨rfl, -⟩ | ⟨rfl, -⟩ <;> decide
  | nop | init | rdr n | wrc v | csum | rdd k | rds k | reservedOp14 r | reservedOp15 r => exact h.elim

/-- A response with `E = 0` is not that of `PhaseError`. -/
theorem ne_phaseError_of_errorFlag {r : RspWord} (h : errorFlag r = false) : r ≠ 0x80000007#32 := by
  rintro rfl
  cases h

/-- The response of a fault other than `PhaseError` is another one (R181). -/
theorem faultResponse_ne_phaseError {c : FaultCode} (h : c ≠ .phaseError) :
    BitVec.ofNat 32 (0x80000000 + c.code.toNat) ≠ 0x80000007#32 := by
  revert h; cases c <;> decide

/-- A command executed by its own rule answers something else than `PhaseError`. -/
theorem exec_rsp_of_phaseOk {i : Instr} {s t : State} (hl : i.legal = true) (hp : phaseOk i s.engine.phase = true)
    (h : exec i s = .next t) : ∃ r, t.rsp = some r ∧ r ≠ 0x80000007#32 := by
  rcases exec_inv h with ⟨hf, hrefused, -⟩ | ⟨-, c, hc, rfl⟩ | ⟨-, -, e, x, he, rfl⟩
  · rw [hf] at hp; rw [hl, hp] at hrefused; cases hrefused
  · have hown : OwnFault i s.engine c := by
      rcases hc with ⟨hl', -⟩ | ⟨-, hp', -⟩ | ⟨-, -, hown⟩
      · rw [hl] at hl'; cases hl'
      · rw [hp] at hp'; cases hp'
      · exact hown
    exact ⟨_, rfl, faultResponse_ne_phaseError hown.ne_phaseError⟩
  · exact ⟨_, rfl, ne_phaseError_of_errorFlag (errorFlag_data he.data_lt)⟩

/-- Settles O31, by the cell; in phase IDLE HLEN and DCNT are 0. -/
theorem legalityTableGoverns : Obligations.LegalityTableGoverns := by
  obtain ⟨hfaults, hrefuses, -⟩ := illegalWordsFault
  refine ⟨fun i s hwf => ⟨fun h => ?_, fun h => ?_, fun h hinv => ?_⟩, fun s hinv hidle => ?_,
    fun w s hw => ⟨hfaults w s hw, hrefuses w s hw⟩⟩
  · obtain ⟨hr, hf, hp⟩ := legalityTable_phaseError h
    exact exec_phaseError hf (legal_of_wf hwf hr) hp
  · obtain ⟨hf, hp⟩ := legalityTable_refused h
    exact exec_refused hf (by rw [← hf, hp, Bool.and_false])
  · obtain ⟨hr, hp⟩ := legalityTable_ok h
    obtain ⟨t, ht⟩ := exec_next (i := i) hinv.hlen_le
    obtain ⟨r, hrsp, hne⟩ := exec_rsp_of_phaseOk (legal_of_wf hwf hr) hp ht
    exact ⟨t, r, ht, hrsp, hne⟩
  · obtain ⟨hhlen, hdcnt, -, -⟩ := hinv.idle_fresh hidle
    exact ⟨exec_hrpend_of_zero (.inl hidle) hhlen, exec_vrfy_of_lt (.inl hidle) (by rw [hdcnt]; decide)⟩

/-! ### Phase transitions (R165) -/

/-- A command answered with `E = 1` leaves phase FAULT. -/
theorem exec_answeredError_phase {i : Instr} {s t : State} (h : exec i s = .next t) (herr : t.answeredError) :
    t.engine.phase = .fault := by
  rcases exec_inv h with ⟨hf, -, rfl⟩ | ⟨-, c, -, rfl⟩ | ⟨-, -, e, x, he, rfl⟩
  · exact hf
  · rfl
  · exact (State.not_ok_and_error (he.answeredOk s) herr).elim

/-- Settles O32: the rows of the commands that complete are those of their effects, where the invariant keeps `HRPEND`
and `VRFY` from completing in phase IDLE. -/
theorem phaseTransitionsFollowTable : Obligations.PhaseTransitionsFollowTable := by
  refine ⟨fun s rest h => ⟨_, step_reset h, rfl⟩, fun i s t hinv h =>
    ⟨exec_answeredError_phase h, exec_keeps_fault h, fun hok _ => ?_⟩⟩
  obtain ⟨e, x, he, rfl⟩ := exec_answeredOk h hok
  cases i with
  | nop | init | rdr n | wrc v => obtain ⟨rfl, -⟩ := he; rfl
  | s2d c => obtain ⟨-, r, -, rfl, -⟩ := he; rfl
  | d2s d | rdd k | rds k => obtain ⟨-, -, rfl, -⟩ := he; rfl
  | hrpb b => obtain ⟨hp, -, -, m, -, rfl, -⟩ := he; exact ⟨hp, rfl⟩
  | hrpend =>
    obtain ⟨hp, hpos, lows, -, rfl, -⟩ := he
    exact ⟨hp.resolve_left fun hidle => hpos (hinv.idle_fresh hidle).1, rfl⟩
  | dig d => obtain ⟨hp, -, rfl, -⟩ := he; exact ⟨hp, rfl⟩
  | sym c => obtain ⟨hp, r, -, rfl, -⟩ := he; exact ⟨hp, rfl⟩
  | csum => obtain ⟨hp, rfl, -⟩ := he; exact ⟨hp, rfl⟩
  | vrfy =>
    obtain ⟨hp, h6, -, rfl, -⟩ := he
    refine ⟨hp.resolve_left fun hidle => ?_, rfl⟩
    rw [hinv.dcnt_zero (.inl hidle)] at h6
    cases h6
  | reservedOp14 r | reservedOp15 r => exact he

/-! ### The execution of one word (R166) -/

/-- Settles O33: some next state is answered, and it keeps the streams. -/
theorem everyWordGivesOneResponse : Obligations.EveryWordGivesOneResponse := by
  intro s w hinv
  obtain ⟨t, ht⟩ := runWord_next w hinv
  obtain ⟨hinputs, houtputs, r, hr⟩ := runWord_streams ht
  exact ⟨t, r, ht, hr, hinputs, houtputs⟩

/-- What a transfer leaves, field by field (R217). -/
theorem State.transfer_eq (s : State) : s.transfer = { s with rsp := none, outputs := s.outputs ++ s.rsp.toList } := by
  obtain ⟨e, _ | r, is, os⟩ := s
  · simp [State.transfer]
  · rfl

/-- Settles O29, by what the word decodes to. -/
theorem stepRunsDecodedCommand : Obligations.StepRunsDecodedCommand := by
  intro s w rest hs
  rw [step_command hs]
  refine ⟨fun i hd => by rw [runWord, hd], fun why hd hf => ?_, fun why hd hf => ?_, s.transfer_eq⟩
  · exact runWord_illegal (legalWord_of_decode_error hd) (by simpa using hf)
  · exact runWord_illegal_fault (legalWord_of_decode_error hd) (by simpa using hf)

/-! ### Raw calls (R167) -/

/-- In a call without an HRP the digits `ds` were absorbed. -/
structure Engine.RawAbsorbed (e : Engine) (ds : List Digit) : Prop where
  phase : e.phase = .idle ∨ e.phase = .data
  chk : e.chk = polymod ds
  hlen : e.hlen = 0#7

/-- `INIT` opens a raw call. -/
theorem Engine.openCall_rawAbsorbed (e : Engine) : e.openCall.RawAbsorbed [] := ⟨.inl rfl, rfl, rfl⟩

/-- One more digit absorbed. -/
theorem Engine.RawAbsorbed.takeDigit {e : Engine} {ds : List Digit} (he : e.RawAbsorbed ds) (x : Digit) :
    (e.takeDigit x).RawAbsorbed (ds ++ [x]) where
  phase := .inr rfl
  chk := by rw [Engine.takeDigit_chk, he.chk, polymod_append]; rfl
  hlen := he.hlen

/-- `DIGS` absorbs its digits without an HRP (R79). -/
theorem runWords_digsProgram_raw {ds es : List Digit} {s : State} (hs : s.engine.RawAbsorbed ds) :
    ∃ t, runWords ((digsProgram es).map encode) s = .next t ∧ t.engine.RawAbsorbed (ds ++ es) := by
  induction es generalizing ds s with
  | nil => exact ⟨s, rfl, by rwa [List.append_nil]⟩
  | cons x es ih =>
    have hs' : s.transfer.engine.RawAbsorbed ds := by simpa using hs
    rw [digsProgram, List.map_cons, runWords_encode_cons rfl (exec_dig_digit hs'.phase x), List.append_cons]
    exact ih (hs'.takeDigit x)

/-- Settles O51: `RDR 2` reads CHK, which is the `polymod` of the digits absorbed. -/
theorem rawCallComputesPolymod : Obligations.RawCallComputesPolymod := by
  intro ds s
  obtain ⟨u, hu, habsorbed⟩ := runWords_digsProgram_raw (es := ds)
    (s := s.transfer.completes s.engine.openCall 0) s.engine.openCall_rawAbsorbed
  rw [List.nil_append] at habsorbed
  have hlast : exec (.rdr 2) u.transfer = .next (u.transfer.completes u.engine (polymod ds).toNat) := by
    rw [exec_rdr, State.transfer_engine, ← habsorbed.chk]
    rfl
  refine ⟨u.transfer.completes u.engine (polymod ds).toNat, ?_, rfl, habsorbed.hlen⟩
  rw [run_load_of_length (by simp [digsProgram]), List.append_assoc, List.singleton_append, List.map_cons,
    runWords_init_cons, runWords_encode_append hu, runWords_encode_cons rfl hlast]
  rfl

end Sys2Proof.Machine

/-! Faults (spec/60_exceptions.md R184 to R188, R191): the order in which a fault is chosen, what entering one writes, and
what phase FAULT executes and turns away. -/

namespace Sys2Proof.Machine

/-! ### The `fault` pin (R191) -/

/-- The pin and the flag F say that PHASE is FAULT (R30, R191). -/
theorem Engine.faultPin_eq_true_iff (e : Engine) : e.faultPin = true ↔ e.phase = .fault := beq_iff_eq

/-- Bit 3 of STATUS, above the three bits of PHASE, is the flag F (R30). -/
theorem Engine.statusReg_getLsbD_three (e : Engine) : e.statusReg.getLsbD 3 = e.faultPin := by
  rw [statusReg, BitVec.getLsbD_setWidth, BitVec.getLsbD_append, BitVec.getLsbD_append, BitVec.getLsbD_append]
  simp

/-- Settles O54: the pin and bit 3 of STATUS are the same flag. -/
theorem faultPinIsStatusF : Obligations.FaultPinIsStatusF := fun p =>
  ⟨p.core.engine.faultPin_eq_true_iff, p.core.engine.statusReg_getLsbD_three.symm⟩

/-! ### Fault entry (R186) and the first fault (R185) -/

/-- How a word is answered: turned away in phase FAULT, by a fault outside it, or as a command that completes with its
effect. -/
theorem runWord_inv {w : CmdWord} {s t : State} (h : runWord w s = .next t) :
    (s.engine.phase = .fault ∧ t = s.turnedAway) ∨
    (s.engine.phase ≠ .fault ∧ ∃ c : FaultCode, t = s.faulted c.code.toNat) ∨
    (∃ i e x, decode w = .ok i ∧ exec i s = .next t ∧ Effect i s.engine e x ∧ t = s.completes e x) := by
  rcases runWord_cases w s with ⟨i, hd, hr⟩ | ⟨why, -, hr⟩ <;> rw [hr] at h
  · rcases exec_inv h with ⟨hf, -, ht⟩ | ⟨hf, c, -, ht⟩ | ⟨-, -, e, x, he, ht⟩
    · exact .inl ⟨hf, ht⟩
    · exact .inr (.inl ⟨hf, c, ht⟩)
    · exact .inr (.inr ⟨i, e, x, hd, h, he, ht⟩)
  · by_cases hf : s.engine.phase = .fault
    · rw [commit_illegal_fault hf] at h
      exact .inl ⟨hf, (Host.Outcome.next.inj h).symm⟩
    · rw [commit_illegal hf] at h
      exact .inr (.inl ⟨hf, .illegalCommand, (Host.Outcome.next.inj h).symm⟩)

/-- Settles O36: outside phase FAULT an answer with `E = 1` is that of a fault, whose state is `State.faulted`. -/
theorem faultEntryWritesPhaseAndErrAlone : Obligations.FaultEntryWritesPhaseAndErrAlone := by
  intro w s t hf h herr
  rcases runWord_inv h with ⟨hfault, -⟩ | ⟨-, c, rfl⟩ | ⟨i, e, x, -, -, he, rfl⟩
  · exact (hf hfault).elim
  · obtain ⟨hpos, hle⟩ := c.code_range
    exact ⟨rfl, _, hpos, hle, rfl⟩
  · exact (State.not_ok_and_error (he.answeredOk s) herr).elim

/-- Settles O37: in phase FAULT a word is turned away or completes, and of those that complete `INIT` alone writes ERR or
leaves the phase. -/
theorem firstFaultIsKept : Obligations.FirstFaultIsKept := by
  intro w s t hf h hw
  rcases runWord_inv h with ⟨-, rfl⟩ | ⟨hne, -⟩ | ⟨i, e, x, hd, hexec, he, rfl⟩
  · exact ⟨rfl, hf, fun _ => rfl⟩
  · exact (hne hf).elim
  · have hi : i ≠ .init := by
      rintro rfl
      exact hw (decode_sound hd).1.symm
    obtain ⟨-, -, herr, -⟩ := he.writers
    exact ⟨by_contra fun hne => hi (herr hne), exec_keeps_fault hexec hf hi,
      fun hans => (State.not_ok_and_error (he.answeredOk s) hans).elim⟩

/-! ### What phase FAULT executes (R187) and how it is left (R188) -/

/-- The words of `NOP`, `INIT`, `RDR` and `WRC`, by their numbers (R187). -/
def executedInFault (w : CmdWord) : Prop :=
  w = 0x0000#16 ∨ w = 0x1000#16 ∨ (0xC000 ≤ w.toNat ∧ w.toNat ≤ 0xC003) ∨ (0xD000 ≤ w.toNat ∧ w.toNat ≤ 0xD001)

/-- The command words of an operand of `k` bits are the `2 ^ k` words from that of operand 0 on (R70, R80). -/
theorem exists_commandWord_iff (w : CmdWord) (op : BitVec 4) {k : Nat} (hk : k ≤ 8) :
    (∃ n : BitVec k, commandWord op (n.setWidth 8) = w) ↔
      op.toNat * 4096 ≤ w.toNat ∧ w.toNat < op.toNat * 4096 + 2 ^ k := by
  constructor
  · rintro ⟨n, rfl⟩
    rw [commandWord_toNat, BitVec.toNat_setWidth_of_le hk]
    exact ⟨Nat.le_add_right _ _, Nat.add_lt_add_left n.isLt _⟩
  · rintro ⟨hlo, hhi⟩
    refine ⟨BitVec.ofNat k (w.toNat - op.toNat * 4096), ?_⟩
    rw [commandWord_operand_eq_ofNat op hk, BitVec.toNat_ofNat, Nat.mod_eq_of_lt (by omega),
      Nat.add_sub_of_le hlo, BitVec.ofNat_toNat, BitVec.setWidth_eq]

/-- The words of `RDR`, by their numbers (R74). -/
theorem exists_encode_rdr_iff (w : CmdWord) :
    (∃ n, encode (.rdr n) = w) ↔ 0xC000 ≤ w.toNat ∧ w.toNat ≤ 0xC003 :=
  (exists_commandWord_iff w 12 (by decide)).trans (and_congr_right' Nat.lt_succ_iff)

/-- The words of `WRC`, by their numbers (R74). -/
theorem exists_encode_wrc_iff (w : CmdWord) :
    (∃ v, encode (.wrc v) = w) ↔ 0xD000 ≤ w.toNat ∧ w.toNat ≤ 0xD001 :=
  (exists_commandWord_iff w 13 (by decide)).trans (and_congr_right' Nat.lt_succ_iff)

/-- The words of R187 are those of the legal commands whose cell in the column FAULT is `ok` (R164, R187). -/
theorem executedInFault_iff (w : CmdWord) :
    executedInFault w ↔ ∃ i, decode w = .ok i ∧ (i.legal && phaseOk i .fault) = true := by
  rw [executedInFault, ← exists_encode_rdr_iff, ← exists_encode_wrc_iff]
  constructor
  · rintro (rfl | rfl | ⟨n, hw⟩ | ⟨v, hw⟩)
    · exact ⟨.nop, decode_ok_iff.2 ⟨rfl, rfl⟩, rfl⟩
    · exact ⟨.init, decode_ok_iff.2 ⟨rfl, rfl⟩, rfl⟩
    · exact ⟨.rdr n, decode_ok_iff.2 ⟨rfl, hw⟩, rfl⟩
    · exact ⟨.wrc v, decode_ok_iff.2 ⟨rfl, hw⟩, rfl⟩
  · rintro ⟨i, hd, hi⟩
    obtain ⟨rfl, -⟩ := decode_sound hd
    obtain ⟨-, hp⟩ := Bool.and_eq_true_iff.1 hi
    cases i with
    | nop => exact .inl rfl
    | init => exact .inr (.inl rfl)
    | rdr n => exact .inr (.inr (.inl ⟨n, rfl⟩))
    | wrc v => exact .inr (.inr (.inr ⟨v, rfl⟩))
    | hrpb b | hrpend | dig d | sym c | csum | vrfy | s2d c | d2s d | rdd k | rds k | reservedOp14 r
    | reservedOp15 r => cases hp

/-- A command that phase FAULT executes completes, in every phase (R160 to R163). -/
theorem exec_of_phaseOk_fault {i : Instr} (hp : phaseOk i .fault = true) (s : State) :
    ∃ t, exec i s = .next t ∧ t.answeredOk := by
  have completed {e : Engine} {x : Nat} (h : exec i s = .next (s.completes e x)) (he : Effect i s.engine e x) :
      ∃ t, exec i s = .next t ∧ t.answeredOk := ⟨_, h, he.answeredOk s⟩
  cases i with
  | nop => exact completed (exec_nop s) ⟨rfl, rfl⟩
  | init => exact completed (exec_init s) ⟨rfl, rfl⟩
  | rdr n => exact completed (exec_rdr n s) ⟨rfl, rfl⟩
  | wrc v => exact completed (exec_wrc v s) ⟨rfl, rfl⟩
  | hrpb b | hrpend | dig d | sym c | csum | vrfy | s2d c | d2s d | rdd k | rds k | reservedOp14 r
  | reservedOp15 r => cases hp

/-- In phase FAULT a word that is not of `NOP`, `INIT`, `RDR` or `WRC` is turned away, legal or not (R187). -/
theorem runWord_turnedAway {w : CmdWord} {s : State} (hf : s.engine.phase = .fault) (hw : ¬ executedInFault w) :
    runWord w s = .next s.turnedAway := by
  rcases runWord_cases w s with ⟨i, hd, hr⟩ | ⟨why, -, hr⟩
  · rw [hr, exec_refused hf (Bool.eq_false_of_not_eq_true fun hi => hw ((executedInFault_iff w).2 ⟨i, hd, hi⟩))]
  · rw [hr, commit_illegal_fault hf]

/-- Settles O38: the words are those of the commands with an `ok` in the column FAULT. -/
theorem faultPhaseTurnsAwayAllButFour : Obligations.FaultPhaseTurnsAwayAllButFour := by
  refine fun w s hf => ⟨fun hw => ?_, runWord_turnedAway hf⟩
  obtain ⟨i, hd, hi⟩ := (executedInFault_iff w).1 hw
  obtain ⟨t, ht, hok⟩ := exec_of_phaseOk_fault (Bool.and_eq_true_iff.1 hi).2 s
  exact ⟨i, t, hd, by rw [runWord, hd], ht, hok⟩

/-- Settles O39: with no input the phase stays, and a word other than that of `INIT` keeps it. -/
theorem onlyInitAndResetLeaveFault : Obligations.OnlyInitAndResetLeaveFault := by
  intro s t hf h hne
  rcases step_cases h with ⟨-, rfl⟩ | ⟨rest, hin, rfl⟩ | ⟨w, rest, hin, hr⟩
  · rw [State.transfer_engine] at hne
    exact (hne hf).elim
  · exact ⟨Engine.reset_fresh, rest, .inl hin⟩
  · have hf' : s.transfer.engine.phase = .fault := by rwa [State.transfer_engine]
    have hw : w = encode .init := by
      by_contra hw
      obtain ⟨-, hphase, -⟩ := firstFaultIsKept w { s.transfer with inputs := rest } t hf' hr hw
      exact hne hphase
    subst hw
    rw [runWord_encode rfl, exec_init] at hr
    cases hr
    exact ⟨Engine.openCall_fresh _, rest, .inr hin⟩

/-! ### The order of R184 -/

/-- The word of a command does what the command does. -/
theorem runWord_of_encode (i : Instr) {w : CmdWord} {s t : State} (hw : encode i = w) (hwf : i.wf = true)
    (h : exec i s = .next t) : runWord w s = .next t := by
  rw [← hw, runWord_encode hwf, h]

/-- In phase FAULT no word takes a fault (R184, R187). -/
theorem runWord_of_fault {w : CmdWord} {s t : State} (hf : s.engine.phase = .fault) (h : runWord w s = .next t) :
    t = s.turnedAway ∨ t.answeredOk := by
  rcases runWord_inv h with ⟨-, ht⟩ | ⟨hne, -⟩ | ⟨i, e, x, -, -, he, rfl⟩
  · exact .inl ht
  · exact (hne hf).elim
  · exact .inr (he.answeredOk s)

/-- A word of a command that is out of its phase faults `PhaseError`, whatever its operand (R164, R184). -/
theorem runWord_phaseError {w : CmdWord} {i : Instr} {s : State} (hd : decode w = .ok i)
    (h : legalityTable i s.engine.phase = some .phaseError) : runWord w s = .next (s.faulted 7) := by
  obtain ⟨hw, hwf⟩ := decode_sound hd
  obtain ⟨hr, hf, hp⟩ := legalityTable_phaseError h
  exact runWord_of_encode i hw hwf (exec_phaseError hf (legal_of_wf hwf hr) hp)

/-- Settles O40: each word is that of its command, whose fault in the phase and with the operand is known. -/
theorem faultPriorityOrder : Obligations.FaultPriorityOrder :=
  ⟨fun _ _ _ => runWord_of_fault,
    fun w s hf hw => illegalWordsFault.1 w s hw hf,
    fun _ _ _ _ hd h _ => runWord_phaseError hd h,
    fun b _ hp h => runWord_of_encode (.hrpb b) (commandWord_eq_ofNat 2 b) rfl
      (exec_hrpb_of_invalid hp (by rwa [validHrpByte_eq_false_iff])),
    fun _ hp h => runWord_of_encode .hrpend rfl rfl (exec_hrpend_of_zero hp h),
    fun d _ h hp => runWord_of_encode (.dig d) (commandWord_eq_ofNat 4 d) rfl (exec_dig_of_lt hp h),
    fun d _ h hf => runWord_of_encode (.d2s d) (commandWord_eq_ofNat 9 d) rfl (exec_d2s_of_lt hf h),
    fun c _ h hp => runWord_of_encode (.sym c) (commandWord_eq_ofNat 5 c) rfl (exec_sym_of_none hp (s2d_eq_none h)),
    fun c _ h hf => runWord_of_encode (.s2d c) (commandWord_eq_ofNat 8 c) rfl (exec_s2d_of_none hf (s2d_eq_none h)),
    fun _ hp h => runWord_of_encode .vrfy rfl rfl (exec_vrfy_of_lt hp h),
    fun _ hp h6 hchk hstrict => runWord_of_encode .vrfy rfl rfl (exec_vrfy_of_mismatch hp h6 hchk hstrict),
    fun _ hp => runWord_of_encode (.dig 32) rfl rfl (exec_phaseError_of_row rfl rfl (.inl hp)),
    fun _ hp => runWord_illegal rfl (by rw [hp]; decide),
    fun _ hp h => runWord_of_encode .vrfy rfl rfl (exec_vrfy_of_lt (.inr hp) (by rw [h]; decide))⟩

end Sys2Proof.Machine

/-! Reset and hazards (spec/70_reset_and_hazards.md R210 to R218): the engine waits and never stops, reset drops what is
pending, and the ports carry the transactions with one command in flight. -/

namespace Sys2Proof.Machine

/-! ### Waiting and going on (R215) -/

/-- Settles O30: the step with no input transfers. -/
theorem engineWaitsWithoutInput : Obligations.EngineWaitsWithoutInput := fun s h => by
  rw [step_nil h, s.transfer_eq]

/-- Settles O34, by what the host gives next. -/
theorem stepNeverStops : Obligations.StepNeverStops := by
  intro s hinv
  match hi : s.inputs with
  | [] => exact ⟨_, step_nil hi⟩
  | .reset :: rest => exact ⟨_, step_reset hi⟩
  | .command w :: rest =>
    rw [step_command hi]
    exact runWord_next w (by simpa [State.Inv] using hinv)

/-! ### Reset (R210 to R212) -/

/-- Settles O53: the reset state is a fresh call with STRICT 1, and a reset edge clears the count of LAT too. -/
theorem resetDropsEverything : Obligations.ResetDropsEverything :=
  ⟨fun _ _ hi => ⟨_, step_reset hi, Engine.reset_fresh, rfl, rfl, rfl⟩,
    fun _ _ hrst => ⟨_, clock_rst hrst, Engine.reset_fresh, rfl, rfl, rfl, rfl⟩⟩

/-! ### The output pins, the transfer and the edges of a command in flight (R217) -/

/-- The engine is not ready exactly while a response is pending. -/
theorem PortState.out_cmdReady_eq_false_iff {p : PortState} : p.out.cmdReady = false ↔ ∃ r, p.core.rsp = some r := by
  rw [PortState.out, Option.isNone_eq_false_iff, Option.isSome_iff_exists]

/-- The engine is ready exactly while no response is pending. -/
theorem PortState.out_cmdReady_eq_true_iff {p : PortState} : p.out.cmdReady = true ↔ p.core.rsp = none :=
  Option.isNone_iff_eq_none

/-- A response is offered once the count of LAT has ended. -/
theorem PortState.out_rsp_eq_some_iff {p : PortState} {r : RspWord} :
    p.out.rsp = some r ↔ p.wait = 0 ∧ p.core.rsp = some r := by
  simp [PortState.out]

/-- When a response word is transferred. -/
theorem PortState.transfers_iff {p : PortState} {i : PinsIn} :
    p.transfers i = true ↔ i.rst = false ∧ (∃ r, p.out.rsp = some r) ∧ i.rspReady = true := by
  simp [PortState.transfers, Option.isSome_iff_exists, and_assoc]

/-- No word is accepted while a response is pending. -/
theorem PortState.accepts_eq_false {p : PortState} {r : RspWord} (i : PinsIn) (h : p.core.rsp = some r) :
    p.accepts i = false := by
  rw [Bool.eq_false_iff, Ne, PortState.accepts_iff, h]
  simp

/-- An edge without reset that accepts no word: a cycle passes, with or without a transfer. -/
theorem clock_of_not_accepts {p q : PortState} {i : PinsIn} (hrst : i.rst = false) (ha : p.accepts i = false)
    (h : clock p i = .next q) :
    q.core = (if p.transfers i then p.core.transfer else p.core) ∧ q.wait = p.wait - 1 ∧
      q.offered = if i.cmdValid then some i.cmdData else none := by
  rcases clock_cases hrst h with ⟨ha', -⟩ | ⟨-, rfl⟩
  · rw [ha] at ha'
    cases ha'
  · exact ⟨rfl, rfl, rfl⟩

/-- An edge that accepts a word executes it. -/
theorem clock_of_accepts {p q : PortState} {i : PinsIn} (ha : p.accepts i = true) (h : clock p i = .next q) :
    p.core.rsp = none ∧ runWord i.cmdData p.core = .next q.core := by
  obtain ⟨hrst, -, hrsp⟩ := PortState.accepts_iff.mp ha
  rcases clock_cases hrst h with ⟨-, -, t, ht, rfl⟩ | ⟨ha', -⟩
  · exact ⟨hrsp, ht⟩
  · rw [ha] at ha'
    cases ha'

/-- While a response is pending, an edge without a transfer counts LAT down and does nothing else to the engine. -/
theorem clock_of_pending {p q : PortState} {i : PinsIn} {r : RspWord} (hrst : i.rst = false)
    (hrsp : p.core.rsp = some r) (ht : p.transfers i = false) (h : clock p i = .next q) :
    q.core = p.core ∧ q.wait = p.wait - 1 := by
  obtain ⟨hcore, hwait, -⟩ := clock_of_not_accepts hrst (PortState.accepts_eq_false i hrsp) h
  rw [ht] at hcore
  exact ⟨hcore, hwait⟩

/-- An edge that transfers a response. -/
theorem clock_of_transfers {p q : PortState} {i : PinsIn} (ht : p.transfers i = true) (h : clock p i = .next q) :
    q.core = p.core.transfer := by
  obtain ⟨hrst, ⟨r, hr⟩, -⟩ := PortState.transfers_iff.mp ht
  obtain ⟨-, hrsp⟩ := PortState.out_rsp_eq_some_iff.mp hr
  obtain ⟨hcore, -⟩ := clock_of_not_accepts hrst (PortState.accepts_eq_false i hrsp) h
  rwa [if_pos ht] at hcore

/-- A run of edges is its first edge and the run of the others. -/
theorem clockRun_cons_inv {i : PinsIn} {is : List PinsIn} {p q : PortState} (h : clockRun (i :: is) p = .next q) :
    ∃ u, clock p i = .next u ∧ clockRun is u = .next q := by
  unfold clockRun at h
  split at h
  · next u hu => exact ⟨u, hu, h⟩
  · cases h
  · cases h

/-- A pending response is offered after as many edges as `wait` counts, whatever the host does meanwhile. -/
theorem clockRun_wait {is : List PinsIn} {p q : PortState} {r : RspWord} (hrsp : p.core.rsp = some r)
    (hrst : ∀ i ∈ is, i.rst = false) (hlen : is.length = p.wait) (h : clockRun is p = .next q) :
    q.out.rsp = some r ∧ q.core = p.core := by
  induction is generalizing p with
  | nil =>
    cases h
    exact ⟨PortState.out_rsp_eq_some_iff.mpr ⟨hlen.symm, hrsp⟩, rfl⟩
  | cons i is ih =>
    obtain ⟨u, hu, hrun⟩ := clockRun_cons_inv h
    obtain ⟨hi, his⟩ := List.forall_mem_cons.mp hrst
    rw [List.length_cons] at hlen
    have ht : p.transfers i = false := by
      rw [Bool.eq_false_iff, Ne, PortState.transfers_iff]
      rintro ⟨-, ⟨x, hx⟩, -⟩
      obtain ⟨hwait, -⟩ := PortState.out_rsp_eq_some_iff.mp hx
      omega
    obtain ⟨hcore, hwait⟩ := clock_of_pending hi hrsp ht hu
    rw [← hcore] at hrsp ⊢
    exact ih hrsp his (by omega) hrun

/-- Settles O55, by what an edge does that accepts a word, that transfers a response, and that does neither. -/
theorem oneCommandInFlight : Obligations.OneCommandInFlight := by
  refine ⟨fun p q i ha h => ?_, fun p q i hrst hready ht h => ?_, fun p q i r hrst hr hnot h => ?_,
    fun p q r is hrsp hrst hlen h => clockRun_wait hrsp hrst hlen h, fun p q i r hrst hr hready h => ?_⟩
  · obtain ⟨-, hrun⟩ := clock_of_accepts ha h
    obtain ⟨-, -, hrsp⟩ := runWord_streams hrun
    exact ⟨PortState.out_cmdReady_eq_false_iff.mpr hrsp, hrsp⟩
  · obtain ⟨r, hrsp⟩ := PortState.out_cmdReady_eq_false_iff.mp hready
    obtain ⟨hcore, -⟩ := clock_of_pending hrst hrsp ht h
    exact ⟨PortState.out_cmdReady_eq_false_iff.mpr ⟨r, by rw [hcore, hrsp]⟩, hcore⟩
  · obtain ⟨hwait, hrsp⟩ := PortState.out_rsp_eq_some_iff.mp hr
    have ht : p.transfers i = false := by simp [PortState.transfers, hnot]
    obtain ⟨hcore, hwait'⟩ := clock_of_pending hrst hrsp ht h
    exact PortState.out_rsp_eq_some_iff.mpr ⟨by rw [hwait', hwait], by rw [hcore, hrsp]⟩
  · obtain ⟨-, hrsp⟩ := PortState.out_rsp_eq_some_iff.mp hr
    have hcore : q.core = p.core.transfer := clock_of_transfers (PortState.transfers_iff.mpr ⟨hrst, ⟨r, hr⟩, hready⟩) h
    exact ⟨PortState.out_cmdReady_eq_true_iff.mpr (by rw [hcore, State.transfer_rsp]),
      by rw [hcore, State.transfer_outputs, hrsp, Option.toList_some]⟩

/-! ### The ports refine the transactions (R14, R217) -/

/-- The words accepted from an edge on: the edge's own, if it accepts one, and those of the edges after it. -/
theorem acceptedWords_cons {i : PinsIn} {p u : PortState} (is : List PinsIn) (h : clock p i = .next u) :
    acceptedWords (i :: is) p = (if p.accepts i then [i.cmdData] else []) ++ acceptedWords is u := by
  rw [acceptedWords, h]

/-- Executing words begins with the transfer of a held response, so a transfer made beforehand changes only the run of no
words, and that one up to a transfer. -/
theorem runWords_of_transfer {ws : List CmdWord} {s t : State} (h : runWords ws s.transfer = .next t) :
    ∃ u, runWords ws s = .next u ∧ u.transfer = t.transfer := by
  cases ws with
  | nil =>
    cases h
    exact ⟨s, rfl, s.transfer_transfer.symm⟩
  | cons w ws =>
    rw [runWords, State.transfer_transfer, ← runWords] at h
    exact ⟨t, h, rfl⟩

/-- Settles O56, by induction on the edges: one that accepts a word executes it, any other leaves the state up to a
transfer. -/
theorem portsCarryTheTransactions : Obligations.PortsCarryTheTransactions := by
  intro is p q hrst h
  induction is generalizing p with
  | nil =>
    cases h
    exact ⟨q.core, rfl, rfl⟩
  | cons i is ih =>
    obtain ⟨u, hu, hrun⟩ := clockRun_cons_inv h
    obtain ⟨hi, his⟩ := List.forall_mem_cons.mp hrst
    obtain ⟨t, ht, hq⟩ := ih u his hrun
    rw [acceptedWords_cons is hu]
    cases ha : p.accepts i with
    | true =>
      obtain ⟨hrsp, hw⟩ := clock_of_accepts ha hu
      refine ⟨t, ?_, hq⟩
      rw [if_pos rfl, List.singleton_append, runWords, State.transfer_of_rsp_none hrsp, hw]
      exact ht
    | false =>
      obtain ⟨hcore, -⟩ := clock_of_not_accepts hi ha hu
      rw [if_neg Bool.false_ne_true, List.nil_append]
      rw [hcore] at ht
      split at ht
      · obtain ⟨v, hv, hvt⟩ := runWords_of_transfer ht
        exact ⟨v, hv, hvt.trans hq⟩
      · exact ⟨t, ht, hq⟩

/-! ### The host's part of the handshake (R218) -/

/-- What it is to keep a word once offered. -/
theorem PortState.hostKeepsOffer_of_offered {p : PortState} {w : CmdWord} (i : PinsIn) (h : p.offered = some w) :
    p.hostKeepsOffer i = (i.cmdValid && i.cmdData == w) := by
  rw [PortState.hostKeepsOffer, h]

/-- A host that does not keep its offer has no move (U6). -/
theorem clock_of_broken_offer {p : PortState} {i : PinsIn} (hrst : i.rst = false) (h : p.hostKeepsOffer i = false) :
    clock p i = .refused .hostBrokeHandshake := by
  simp [clock, hrst, h]

/-- A host that keeps its offer has a move, from the invariant: the one thing that could stop an edge is the execution
of a word. -/
theorem clock_next {p : PortState} {i : PinsIn} (hinv : p.core.Inv) (hk : p.hostKeepsOffer i = true) :
    ∃ q, clock p i = .next q := by
  cases hrst : i.rst with
  | true => exact ⟨_, clock_rst hrst⟩
  | false =>
    obtain ⟨t, ht⟩ := runWord_next i.cmdData hinv
    cases ha : p.accepts i <;> simp [clock, hrst, hk, ha, ht]

/-- Settles O57: a broken offer, a kept one, and an edge that does not accept. -/
theorem handshakeBreakersHaveNoMove : Obligations.HandshakeBreakersHaveNoMove := by
  refine ⟨fun p i w ho hrst hbroken => clock_of_broken_offer hrst ?_, fun p i hinv hk => clock_next hinv hk,
    fun p q i hrst hvalid ha h => ?_⟩
  · rw [PortState.hostKeepsOffer_of_offered i ho]
    rcases hbroken with hdropped | hchanged
    · rw [hdropped, Bool.false_and]
    · rw [beq_false_of_ne hchanged, Bool.and_false]
  · obtain ⟨-, -, hoffered⟩ := clock_of_not_accepts hrst ha h
    rwa [hvalid, if_pos rfl] at hoffered

end Sys2Proof.Machine
